-- ==== Sys2Proof/Word.lean ====
section
/-! DEFINITION. The word types: a register or memory cell, an instruction word, a source field. -/

namespace Sys2Proof

/-- A register or memory cell: an unsigned 8-bit value (00_scope.md R5 XLEN, 10_state.md R10, R14). -/
abbrev Byte := BitVec 8

/-- An instruction word `W[39:0]` (30_encoding.md R53). -/
abbrev Word := BitVec 40

/-- A source field `F[11:0]` of an instruction word (30_encoding.md R54). -/
abbrev Field := BitVec 12

end Sys2Proof
end

