-- ==== Sys2Proof/Config.lean ====
section
/-! DEFINITION. What one build of the hardware fixes: the spec's open parameter. -/

namespace Sys2Proof

/-- The parameters 00_scope.md R5 leaves open. They are held in State, where no step changes them, so
a statement about every state covers every build (DESIGN CHOICE, notes/assumptions/2.md; safe).
CNTW is not among them: the model's counters are naturals (decision D4, notes/assumptions/5.md). -/
structure Params where
  /-- JUMP_WB_EVENT: whether a Jump always passes through a Writeback event (decision D6, conflict C3). -/
  jumpWbEvent : Bool
  deriving DecidableEq, Repr

end Sys2Proof
end

