-- ==== Sys2Proof/Syntax.lean ====
section
/-! DEFINITION. The instruction grammar (30_encoding.md R50, R51), one constructor per row of the opcode table. -/

namespace Sys2Proof

/-- Where an operand or a destination resides (00_scope.md R9, 30_encoding.md R50). The ranges are
half-open (conflict C4); an index out of range cannot be written down (93 U1, notes/assumptions/7.md; safe). -/
inductive Source where
  /-- `Direct(reg)`: register `x[reg]`. -/
  | direct (reg : Fin 16)
  /-- `Indirect(addr)`: memory cell `M[addr]` at the literal address (20_memory.md R36). -/
  | indirect (addr : Fin 1024)
  /-- `Immediate(value)`: a literal, any integer at the abstract level (93 U9). -/
  | immediate (value : Int)
  deriving DecidableEq, Repr

/-- An instruction (30_encoding.md R50, R55). -/
inductive Instr where
  /-- MOV, `Unary{op1, res}`. -/
  | mov (op1 res : Source)
  /-- ADD, `Binary{op1, op2, res, op = Add}`. -/
  | add (op1 op2 res : Source)
  /-- SUB, `Binary{op1, op2, res, op = Sub}`. -/
  | sub (op1 op2 res : Source)
  /-- JMP, `Jump{offset}`. -/
  | jmp (offset : Source)
  deriving DecidableEq, Repr

end Sys2Proof
end

