-- ==== Sys2Proof/WellFormed.lean ====
section
/-! DEFINITION. Well-formedness (30_encoding.md R52). -/

namespace Sys2Proof

/-- R52: a literal lies in 0 to 255; the index bounds hold by the type. -/
def Source.wellFormed : Source → Bool
  | .direct _ => true
  | .indirect _ => true
  | .immediate v => decide (0 ≤ v) && decide (v ≤ 255)

/-- R52: every source of the instruction is well-formed. An Immediate destination is well-formed. -/
def Instr.wellFormed : Instr → Bool
  | .mov op1 res => op1.wellFormed && res.wellFormed
  | .add op1 op2 res => op1.wellFormed && op2.wellFormed && res.wellFormed
  | .sub op1 op2 res => op1.wellFormed && op2.wellFormed && res.wellFormed
  | .jmp offset => offset.wellFormed

end Sys2Proof
end

