-- ==== Sys2Proof/Decode.lean ====
section
/-! DEFINITION. The decoder and the encoder of the 40-bit instruction word (30_encoding.md R53 to R62). -/

namespace Sys2Proof

/-- `trunc8` of 00_scope.md R7: the low 8 bits, floor-modulo 256, of any integer (decision D5,
notes/assumptions/6.md). -/
def trunc8 (v : Int) : Byte := BitVec.ofInt 8 v

/-- Why a word spells no instruction (30_encoding.md R58). -/
inductive DecodeError where
  /-- (a) `opc` is 0x4 to 0xF. -/
  | reservedOpcode
  /-- (b) a used source field has mode 0b11. -/
  | reservedMode
  /-- (c) a used source field has a non-zero bit among its must-be-zero bits. -/
  | nonzeroMustBeZero
  deriving DecidableEq, Repr

/-! ## Fields of a word (R53) -/

/-- `opc = W[39:36]`. -/
def opcField (w : Word) : BitVec 4 := w.extractLsb' 36 4

/-- `S1 = W[35:24]`. -/
def s1Field (w : Word) : Field := w.extractLsb' 24 12

/-- `S2 = W[23:12]`. -/
def s2Field (w : Word) : Field := w.extractLsb' 12 12

/-- `SD = W[11:0]`. -/
def sdField (w : Word) : Field := w.extractLsb' 0 12

/-! ## Decoding -/

/-- `dec_src` of R61, with the layout of R54. -/
def decSrc (f : Field) : Except DecodeError Source :=
  let mode : BitVec 2 := f.extractLsb' 10 2
  if mode = 0b00#2 then
    if f.extractLsb' 4 6 = 0#6 then .ok (.direct (f.extractLsb' 0 4).toFin) else .error .nonzeroMustBeZero
  else if mode = 0b01#2 then
    .ok (.indirect (f.extractLsb' 0 10).toFin)
  else if mode = 0b10#2 then
    if f.extractLsb' 8 2 = 0#2 then .ok (.immediate (f.extractLsb' 0 8).toNat) else .error .nonzeroMustBeZero
  else .error .reservedMode

/-- Decode two sources, the first refused one giving the verdict. -/
def decTwo (f g : Field) (k : Source → Source → Instr) : Except DecodeError Instr :=
  match decSrc f with
  | .error e => .error e
  | .ok a =>
    match decSrc g with
    | .error e => .error e
    | .ok b => .ok (k a b)

/-- Decode three sources, the first refused one giving the verdict. -/
def decThree (f g h : Field) (k : Source → Source → Source → Instr) : Except DecodeError Instr :=
  match decSrc f with
  | .error e => .error e
  | .ok a =>
    match decSrc g with
    | .error e => .error e
    | .ok b =>
      match decSrc h with
      | .error e => .error e
      | .ok c => .ok (k a b c)

/-- `decode` of R61, total on all words; ignored fields are not looked at (R57). -/
def decode (w : Word) : Except DecodeError Instr :=
  if opcField w = 0x0#4 then decTwo (s1Field w) (sdField w) .mov
  else if opcField w = 0x1#4 then decThree (s1Field w) (s2Field w) (sdField w) .add
  else if opcField w = 0x2#4 then decThree (s1Field w) (s2Field w) (sdField w) .sub
  else if opcField w = 0x3#4 then
    match decSrc (s1Field w) with
    | .error e => .error e
    | .ok a => .ok (.jmp a)
  else .error .reservedOpcode

/-! ## Encoding -/

/-- `enc_src` of R62; a literal out of range is reduced by `trunc8`, as an assembler does (R56). -/
def encSrc : Source → Field
  | .direct r => 0b00#2 ++ (0#6 ++ BitVec.ofFin (w := 4) r)
  | .indirect a => 0b01#2 ++ BitVec.ofFin (w := 10) a
  | .immediate v => 0b10#2 ++ (0#2 ++ trunc8 v)

/-- The word `o sss ttt ddd` of R53. -/
def assembleWord (opc : BitVec 4) (s1 s2 sd : Field) : Word := opc ++ (s1 ++ (s2 ++ sd))

/-- `encode` of R62: ignored fields are 0x000. -/
def encode : Instr → Word
  | .mov op1 res => assembleWord 0x0#4 (encSrc op1) 0x000#12 (encSrc res)
  | .add op1 op2 res => assembleWord 0x1#4 (encSrc op1) (encSrc op2) (encSrc res)
  | .sub op1 op2 res => assembleWord 0x2#4 (encSrc op1) (encSrc op2) (encSrc res)
  | .jmp offset => assembleWord 0x3#4 (encSrc offset) 0x000#12 0x000#12

/-- The normal form of a source (R52): its literal reduced by `trunc8`. -/
def Source.normalise : Source → Source
  | .direct r => .direct r
  | .indirect a => .indirect a
  | .immediate v => .immediate (trunc8 v).toNat

/-- The normal form of an instruction (R52). -/
def Instr.normalise : Instr → Instr
  | .mov op1 res => .mov op1.normalise res.normalise
  | .add op1 op2 res => .add op1.normalise op2.normalise res.normalise
  | .sub op1 op2 res => .sub op1.normalise op2.normalise res.normalise
  | .jmp offset => .jmp offset.normalise

/-! ## The host's numbering -/

/-- The instruction word whose low `nbits` bits are those of `w` and whose other bits are 0. Every
instruction is one 40-bit word (R60) with `W[0]` its bit 0, so the host's numbering is R53's own. -/
def tableWord (nbits w : Nat) : Word := BitVec.ofNat 40 (w % 2 ^ nbits)

/-- The instruction the decoder reads from a word numbered as spec/opcode_table.json numbers it. -/
def decodeTableWord (nbits w : Nat) : Option Instr := (decode (tableWord nbits w)).toOption

end Sys2Proof
end

