-- ==== Sys2Proof/Machine/Parameters.lean ====
section
/-! DEFINITION. The values the spec's decisions give to what its source leaves open: reset contents and the default parameter. -/

namespace Sys2Proof.Machine

/-- What a register holds at reset (10_state.md R23, decision D3; notes/assumptions/3.md, unsafe). -/
def resetByte : Byte := 0#8

/-- What a memory cell not listed in the memory reads as: its reset contents (10_state.md R23,
decision D3; notes/assumptions/3.md, unsafe). -/
def unlistedByte : Byte := 0#8

/-- The spec's default of its open parameter, JUMP_WB_EVENT = true (decision D6; DESIGN CHOICE,
notes/assumptions/2.md). -/
def defaultParams : Params := { jumpWbEvent := true }

end Sys2Proof.Machine
end

