-- ==== Sys2Proof/Machine/State.lean ====
section
/-! DEFINITION. The machine state as plain data, its reset value, and the reasons a step can stop. -/

namespace Sys2Proof.Machine

/-- The cause code of an Exception event (60_exceptions.md R150; codes 0b00 and 0b11 are never driven). -/
inductive Cause where
  /-- `IMM_DEST`: the destination is a literal (R147). -/
  | immDest
  /-- `OP2_SINGLE`: the second-operand stage reached by a one-operand instruction (R148). -/
  | op2Single
  deriving DecidableEq, Repr

/-- An event: work deferred to the next clock tick, with its latches (10_state.md R19, R20). -/
inductive Event where
  /-- `Op1Fetch{instr}`. -/
  | op1Fetch (instr : Instr)
  /-- `Op2Fetch{instr, op1}`, the operand latch holding `trunc8` of the first operand. -/
  | op2Fetch (instr : Instr) (op1 : Byte)
  /-- `Writeback{instr, result}`, the result latch holding `trunc8` of the result. -/
  | writeback (instr : Instr) (result : Byte)
  /-- `Exception{cause}`. -/
  | exception (cause : Cause)
  deriving DecidableEq, Repr

/-- The input ports as sampled at one rising edge (50_interface.md R131). -/
structure PortIn where
  rst : Bool
  instrValid : Bool
  instr : Word
  deriving DecidableEq, Repr

/-- One move of the harness, the core's whole outside world (DESIGN CHOICE, notes/assumptions/1.md). -/
inductive HarnessMove where
  /-- `execute(instruction)` with an abstract instruction (50_interface.md R130). -/
  | call (i : Instr)
  /-- `execute(decode(W))` with an instruction word (00_scope.md R6, 50_interface.md R140). -/
  | callWord (w : Word)
  /-- One rising clock edge with these inputs (50_interface.md R131 to R134). -/
  | edge (p : PortIn)
  deriving DecidableEq, Repr

/-- The data memory: (address, byte) pairs in canonical form (`Memory.wf` in Machine/Ops.lean). -/
abbrev Memory := List Host.Cell

/-- The machine state. The fields from `x` to `pend` are all the state the spec gives the hardware
(10_state.md R22); `params`, `inputs` and `diagnostics` are the model's own. -/
@[ext]
structure State where
  /-- Registers `x[0]` to `x[15]` (R10). -/
  x : Vector Byte 16
  /-- Data memory `M[0]` to `M[1023]` (R14). -/
  mem : Memory
  /-- Busy clock cycles (R16). -/
  cycles : Nat
  /-- `Op1Fetch` events consumed (R17). -/
  fetch1 : Nat
  /-- `Op2Fetch` events consumed (R17). -/
  fetch2 : Nat
  /-- `Writeback` events consumed (R17). -/
  writeback : Nat
  /-- `Exception` events consumed (R18). -/
  exceptions : Nat
  /-- The pending-event register; `none` is quiescence (R19). -/
  pend : Option Event
  /-- The build's parameters; no step changes them (notes/assumptions/2.md). -/
  params : Params
  /-- The harness's moves still to come, oldest first (notes/assumptions/1.md). -/
  inputs : List HarnessMove
  /-- The causes the diagnostic output has carried so far, oldest first (notes/assumptions/11.md). -/
  diagnostics : List Cause
  deriving DecidableEq, Repr

/-- The machine right after reset (10_state.md R23), with no move of the harness waiting. -/
def State.reset : State :=
  { x := Vector.replicate 16 resetByte
    mem := []
    cycles := 0
    fetch1 := 0
    fetch2 := 0
    writeback := 0
    exceptions := 0
    pend := none
    params := defaultParams
    inputs := []
    diagnostics := [] }

/-- Why the machine stops. -/
inductive Fault where
  /-- The fatal logic fault: `write` applied to an Immediate (40_addressing.md R73, 60_exceptions.md
  R149, 93 U3). Raised by `write`, and so by a tick only from a Writeback event that holds an
  Immediate destination, which `execute` cannot produce. Safe: the model stops. -/
  | logicFault
  deriving DecidableEq, Repr

/-- Why the model gives no next state. -/
inductive Refusal where
  /-- An instruction without a meaning; no arm of `exec` raises it. Safe. -/
  | notModelled (mnemonic : String)
  /-- The harness presented a word that spells no instruction (30_encoding.md R58, 93 U2). Raised by
  `callWord` moves and by accepting edges. Safe: the spec gives no behaviour. -/
  | invalidWord (why : DecodeError)
  /-- `execute` called while an event is pending (41_pipeline.md R91, 93 U6). Raised by `issue`, so by
  `call` and `callWord` moves; a port edge ignores the instruction instead (50_interface.md R133).
  Safe: the spec has no step there. -/
  | notQuiescent
  deriving DecidableEq, Repr

end Sys2Proof.Machine
end

