-- ==== Sys2Proof/Machine/Ops.lean ====
section
/-! DEFINITION. Operations over memory, registers and counters; raising and taking an exception; the reset edge. -/

namespace Sys2Proof.Machine

/-- What a step or a part of one answers. -/
abbrev Result := Host.Outcome State Fault Refusal

/-- Go on from a next state; a stop stays a stop. -/
def andThen (o : Result) (f : State → Result) : Result :=
  match o with
  | .next s => f s
  | .fault r => .fault r
  | .refused r => .refused r

/-! ## Memory (20_memory.md R30 to R38) -/

/-- `M[a]`; an address no entry lists holds its reset contents. -/
def Memory.read : Memory → Nat → Byte
  | [], _ => unlistedByte
  | (b, v) :: m, a => if a = b then v else Memory.read m a

/-- Drop every entry for `a`. -/
def Memory.erase : Memory → Nat → Memory
  | [], _ => []
  | (b, v) :: m, a => if a = b then Memory.erase m a else (b, v) :: Memory.erase m a

/-- Put an entry for `a` before the first higher address. -/
def Memory.insert : Memory → Nat → Byte → Memory
  | [], a, v => [(a, v)]
  | (b, w) :: m, a, v => if a < b then (a, v) :: (b, w) :: m else (b, w) :: Memory.insert m a v

/-- `M[a] <- v`, keeping the canonical form: the value an unlisted cell reads as is not listed. -/
def Memory.write (m : Memory) (a : Nat) (v : Byte) : Memory :=
  if v = unlistedByte then Memory.erase m a else Memory.insert (Memory.erase m a) a v

/-- Canonical from address `lo` up: addresses rise strictly, stay below 1024, and no entry holds
what an unlisted cell reads as. -/
def Memory.wfFrom (lo : Nat) : Memory → Bool
  | [] => true
  | (b, v) :: m => decide (lo ≤ b) && decide (b < 1024) && decide (v ≠ unlistedByte) && Memory.wfFrom (b + 1) m

/-- The canonical form. -/
def Memory.wf (m : Memory) : Bool := Memory.wfFrom 0 m

/-! ## Registers and cells of a state (00_scope.md R8) -/

/-- `x[r]`. -/
def State.reg (s : State) (r : Fin 16) : Byte := s.x[r.val]

/-- `x[r] <- v`. No register is hard-wired (10_state.md R11). -/
def State.setReg (s : State) (r : Fin 16) (v : Byte) : State := { s with x := s.x.set r.val v }

/-- `MemRead(a, 1)`. -/
def State.cell (s : State) (a : Nat) : Byte := Memory.read s.mem a

/-- `MemWrite(a, 1, v)`. -/
def State.setCell (s : State) (a : Fin 1024) (v : Byte) : State := { s with mem := Memory.write s.mem a.val v }

/-! ## The pending event and the counters -/

/-- `pend <- e`. -/
def State.defer (s : State) (e : Event) : State := { s with pend := some e }

/-- `cycles <- cycles + 1` (41_pipeline.md R85, R86). -/
def State.chargeCycle (s : State) : State := { s with cycles := s.cycles + 1 }

/-- What every tick does before its handler: `pend <- none; cycles <- cycles + 1` (41_pipeline.md R86). -/
def State.consume (s : State) : State := { s with pend := none, cycles := s.cycles + 1 }

/-- `fetch1 <- fetch1 + 1`. -/
def State.countFetch1 (s : State) : State := { s with fetch1 := s.fetch1 + 1 }

/-- `fetch2 <- fetch2 + 1`. -/
def State.countFetch2 (s : State) : State := { s with fetch2 := s.fetch2 + 1 }

/-- `writeback <- writeback + 1`. -/
def State.countWriteback (s : State) : State := { s with writeback := s.writeback + 1 }

/-! ## Exceptions -/

/-- `raise Exception(cause)` (60_exceptions.md R146): only `pend` changes. -/
def raiseException (c : Cause) (s : State) : State := s.defer (.exception c)

/-- Taking an exception (41_pipeline.md R90, 60_exceptions.md R151): count it and emit the
diagnostic. It saves nothing and goes nowhere (R152), and there is no return from it (R154): the
instruction retires, `pend` being `none` already. -/
def takeException (c : Cause) (s : State) : State :=
  { s with exceptions := s.exceptions + 1, diagnostics := s.diagnostics ++ [c] }

/-! ## Reset -/

/-- An edge with `rst = 1` (70_reset_and_hazards.md R170): the hardware's state takes its reset
values, an instruction in flight is abandoned. What is not the hardware's state stays
(notes/assumptions/13.md). -/
def State.hardwareReset (s : State) : State :=
  { State.reset with params := s.params, inputs := s.inputs, diagnostics := s.diagnostics }

end Sys2Proof.Machine
end

