-- ==== Sys2Proof/Machine/Operands.lean ====
section
/-! DEFINITION. Addressing resolution: the source multiplexer `read`, the writeback steering `write`, and which source an instruction reads first and writes (40_addressing.md). -/

namespace Sys2Proof.Machine

/-- `is_indirect` (R76): the deferred latency class. -/
def isIndirect : Source → Bool
  | .direct _ => false
  | .indirect _ => true
  | .immediate _ => false

/-- Whether a source is a literal. -/
def isImmediate : Source → Bool
  | .direct _ => false
  | .indirect _ => false
  | .immediate _ => true

/-- `read(src)` (R70): registers and cells zero-extended, a literal as it stands. No side effect (R71). -/
def read (src : Source) (s : State) : Int :=
  match src with
  | .direct r => (s.reg r).toNat
  | .indirect a => (s.cell a.val).toNat
  | .immediate v => v

/-- `write(dst, v)` (R72): the low 8 bits are stored; a literal is the fatal logic fault (R73). -/
def write (dst : Source) (v : Int) (s : State) : Result :=
  match dst with
  | .direct r => .next (s.setReg r (trunc8 v))
  | .indirect a => .next (s.setCell a (trunc8 v))
  | .immediate _ => .fault .logicFault

/-- `first_src` (R75). -/
def firstSrc : Instr → Source
  | .mov op1 _ => op1
  | .add op1 _ _ => op1
  | .sub op1 _ _ => op1
  | .jmp offset => offset

/-- `dest` (R75): a Jump writes register 0 whatever its fields say. -/
def dest : Instr → Source
  | .mov _ res => res
  | .add _ _ res => res
  | .sub _ _ res => res
  | .jmp _ => .direct 0

end Sys2Proof.Machine
end

