-- ==== Sys2Proof/Machine/Flags.lean ====
section
/-! DEFINITION. The ALU. The hardware has no flags (10_state.md R15), so an operation has a result and nothing else. -/

namespace Sys2Proof.Machine

/-- `compute(instr, a, b)` (41_pipeline.md R81): the exact integer result; only its `trunc8` is ever stored. -/
def compute (i : Instr) (a b : Int) : Int :=
  match i with
  | .mov _ _ => a
  | .add _ _ _ => a + b
  | .sub _ _ _ => a - b
  | .jmp _ => a

end Sys2Proof.Machine
end

