-- ==== Sys2Proof/Machine/Pipeline.lean ====
section
/-! DEFINITION. The pipeline event machine: `issue`, `tick` and `execute` (41_pipeline.md R80 to R91). -/

namespace Sys2Proof.Machine

/-! ## Combinational helpers: they end the current cycle by leaving an event or none -/

/-- `wb_decide` (R84): store now, defer the store, or raise `IMM_DEST` instead of it. -/
def wbDecide (i : Instr) (result : Int) (s : State) : Result :=
  match dest i with
  | .direct r => write (.direct r) result s
  | .indirect _ => .next (s.defer (.writeback i (trunc8 result)))
  | .immediate _ => .next (raiseException .immDest s)

/-- The second operand of a Binary that is combinational, or the deferral of its fetch (R83). -/
def resolveOp2 (i : Instr) (op2 : Source) (v1 : Int) (s : State) : Result :=
  if isIndirect op2 then .next (s.defer (.op2Fetch i (trunc8 v1)))
  else wbDecide i (compute i v1 (read op2 s)) s

/-- `op2_stage` (R83); an instruction with one operand raises `OP2_SINGLE` (60_exceptions.md R148). -/
def op2Stage (i : Instr) (v1 : Int) (s : State) : Result :=
  match i with
  | .mov _ _ => .next (raiseException .op2Single s)
  | .add _ op2 _ => resolveOp2 i op2 v1 s
  | .sub _ op2 _ => resolveOp2 i op2 v1 s
  | .jmp _ => .next (raiseException .op2Single s)

/-- A Jump with its operand resolved (R82, 44_jump.md R126): it bypasses the writeback decision. -/
def jumpWriteback (i : Instr) (v1 : Int) (s : State) : Result :=
  if s.params.jumpWbEvent then .next (s.defer (.writeback i (trunc8 v1)))
  else write (.direct 0) v1 s

/-- `after_op1` (R82): what follows the first operand, by kind of instruction. -/
def afterOp1 (i : Instr) (v1 : Int) (s : State) : Result :=
  match i with
  | .mov _ _ => wbDecide i (compute i v1 0) s
  | .add _ _ _ => op2Stage i v1 s
  | .sub _ _ _ => op2Stage i v1 s
  | .jmp _ => jumpWriteback i v1 s

/-! ## The issue cycle -/

/-- `issue(instr)` (R85); refused while an event is pending (93 U6). -/
def issue (i : Instr) (s : State) : Result :=
  match s.pend with
  | some _ => .refused .notQuiescent
  | none =>
    if isIndirect (firstSrc i) then .next (s.chargeCycle.defer (.op1Fetch i))
    else afterOp1 i (read (firstSrc i) s) s.chargeCycle

/-! ## The tick -/

/-- `handle_op1fetch` (R87). -/
def handleOp1Fetch (i : Instr) (s : State) : Result :=
  afterOp1 i (read (firstSrc i) s) s.countFetch1

/-- `handle_op2fetch` (R88). -/
def handleOp2Fetch (i : Instr) (op1 : Byte) (s : State) : Result :=
  match i with
  | .mov _ _ => .next (raiseException .op2Single s.countFetch2)
  | .add _ op2 _ => wbDecide i (compute i op1.toNat (read op2 s)) s.countFetch2
  | .sub _ op2 _ => wbDecide i (compute i op1.toNat (read op2 s)) s.countFetch2
  | .jmp _ => .next (raiseException .op2Single s.countFetch2)

/-- `handle_writeback` (R89). -/
def handleWriteback (i : Instr) (result : Byte) (s : State) : Result :=
  write (dest i) result.toNat s.countWriteback

/-- `handle_exception` (R90). -/
def handleException (c : Cause) (s : State) : Result := .next (takeException c s)

/-- `tick` (R86) consuming the event `e`: one clock cycle. -/
def tick (e : Event) (s : State) : Result :=
  match e with
  | .op1Fetch i => handleOp1Fetch i s.consume
  | .op2Fetch i op1 => handleOp2Fetch i op1 s.consume
  | .writeback i result => handleWriteback i result s.consume
  | .exception c => handleException c s.consume

/-! ## Execute -/

/-- Tick while an event is pending, at most `n` times. -/
def drain : Nat → State → Result
  | 0, s => .next s
  | n + 1, s =>
    match s.pend with
    | none => .next s
    | some e => andThen (tick e s) (drain n)

/-- `execute(instr)` (R91): issue, then tick to quiescence. At most three ticks follow the issue
(R92), so three is all the loop needs (DEDUCED, notes/assumptions/17.md; exact). -/
def execute (i : Instr) (s : State) : Result := andThen (issue i s) (drain 3)

end Sys2Proof.Machine
end

