-- ==== Sys2Proof/Machine/Binary.lean ====
section
/-! DEFINITION. The Binary instructions: ADD and SUB (43_binary.md). -/

namespace Sys2Proof.Machine

/-- ADD, `execute(Binary{op1, op2, res, Add})` (R115, R117, R119, R120). -/
def execAdd (op1 op2 res : Source) (s : State) : Result := execute (.add op1 op2 res) s

/-- SUB, `execute(Binary{op1, op2, res, Sub})` (R116, R118, R119, R120). -/
def execSub (op1 op2 res : Source) (s : State) : Result := execute (.sub op1 op2 res) s

end Sys2Proof.Machine
end

