-- ==== Sys2Proof/Machine/Jump.lean ====
section
/-! DEFINITION. The Jump instruction: JMP (44_jump.md). -/

namespace Sys2Proof.Machine

/-- JMP, `execute(Jump{offset})` (R125 to R128): it writes register 0 and transfers no control. -/
def execJmp (offset : Source) (s : State) : Result := execute (.jmp offset) s

end Sys2Proof.Machine
end

