-- ==== Sys2Proof/Machine/Unary.lean ====
section
/-! DEFINITION. The Unary instruction: MOV (42_unary.md). -/

namespace Sys2Proof.Machine

/-- MOV, `execute(Unary{op1, res})` (R110, R111). -/
def execMov (op1 res : Source) (s : State) : Result := execute (.mov op1 res) s

end Sys2Proof.Machine
end

