-- ==== Sys2Proof/Machine/Dispatch.lean ====
section
/-! DEFINITION. One arm per instruction: `exec` is the call `execute(instruction)` (50_interface.md R130). -/

namespace Sys2Proof.Machine

def exec (i : Instr) (s : State) : Host.Outcome State Fault Refusal :=
  match i with
  | .mov op1 res => Sys2Proof.Machine.execMov op1 res s
  | .add op1 op2 res => Sys2Proof.Machine.execAdd op1 op2 res s
  | .sub op1 op2 res => Sys2Proof.Machine.execSub op1 op2 res s
  | .jmp offset => Sys2Proof.Machine.execJmp offset s

end Sys2Proof.Machine
end

