-- ==== Sys2Proof/Machine/Ports.lean ====
section
/-! DEFINITION. The port-level interface (50_interface.md R131 to R137): one clock edge, the outputs, observation. -/

namespace Sys2Proof.Machine

/-- The input ports when the harness presents nothing. -/
def PortIn.idle : PortIn := { rst := false, instrValid := false, instr := 0#40 }

/-- One rising clock edge: reset (70_reset_and_hazards.md R170), busy (R133), accept (R132) or idle (R134). -/
def edge (p : PortIn) (s : State) : Result :=
  if p.rst then .next s.hardwareReset
  else
    match s.pend with
    | some e => tick e s
    | none =>
      if p.instrValid then
        match decode p.instr with
        | .ok i => issue i s
        | .error e => .refused (.invalidWord e)
      else .next s

/-- The output `ready` (R131): 1 exactly when no event is pending. -/
def ready (s : State) : Bool := s.pend.isNone

/-- The 2-bit code of a cause (60_exceptions.md R150). -/
def Cause.code : Cause → BitVec 2
  | .immDest => 0b01#2
  | .op2Single => 0b10#2

/-- The diagnostic output in the cycle that ends at an edge with inputs `p`: the cause of the
exception being consumed, `none` when `diag_valid = 0` (R137). An event a reset abandons is not
consumed (notes/assumptions/13.md). -/
def diagnostic (p : PortIn) (s : State) : Option Cause :=
  if p.rst then none
  else
    match s.pend with
    | some (.exception c) => some c
    | some (.op1Fetch _) => none
    | some (.op2Fetch _ _) => none
    | some (.writeback _ _) => none
    | none => none

/-- The output `diag_valid` (R131, R137). -/
def diagValid (p : PortIn) (s : State) : Bool := (diagnostic p s).isSome

/-- The output `diag_cause` (R131): no value while it is not meaningful. -/
def diagCause (p : PortIn) (s : State) : Option (BitVec 2) := (diagnostic p s).map Cause.code

/-- What the harness can read (R136). -/
structure Observation where
  x : Vector Byte 16
  mem : Memory
  cycles : Nat
  fetch1 : Nat
  fetch2 : Nat
  writeback : Nat
  exceptions : Nat
  deriving DecidableEq, Repr

/-- Reading the observable state: meaningful only when the core is quiescent (R136, decision D17). -/
def observe (s : State) : Option Observation :=
  match s.pend with
  | some _ => none
  | none => some ⟨s.x, s.mem, s.cycles, s.fetch1, s.fetch2, s.writeback, s.exceptions⟩

end Sys2Proof.Machine
end

