-- ==== Sys2Proof/Machine/Harness.lean ====
section
/-! DEFINITION. The harness's moves and what the core does with each (50_interface.md R130, R135, R139). -/

namespace Sys2Proof.Machine

/-- The harness's next move and those after it. When it has no more moves it presents nothing, for
ever (R139; DESIGN CHOICE, notes/assumptions/4.md). -/
def nextMove : List HarnessMove → HarnessMove × List HarnessMove
  | [] => (.edge PortIn.idle, [])
  | m :: rest => (m, rest)

/-- What the core does with one move: a call executes an instruction to quiescence (R130), an edge is
one clock cycle (R131). -/
def deliver (m : HarnessMove) (s : State) : Result :=
  match m with
  | .call i => exec i s
  | .callWord w =>
    match decode w with
    | .ok i => exec i s
    | .error e => .refused (.invalidWord e)
  | .edge p => edge p s

/-- `s` with the word `w` as the harness's next call; an instruction in flight is dropped, since a
call needs a quiescent core (R135; notes/assumptions/4.md). -/
def placeWord (w : Word) (s : State) : State :=
  { s with pend := none, inputs := .callWord w :: s.inputs }

end Sys2Proof.Machine
end

