-- ==== Sys2Proof/Machine/Step.lean ====
section
/-! DEFINITION. The step: the core takes the harness's next move. -/

namespace Sys2Proof.Machine

/-- One step: take the oldest move of the harness and do what the core does with it. -/
def step (s : State) : Host.Outcome State Fault Refusal :=
  deliver (nextMove s.inputs).1 { s with inputs := (nextMove s.inputs).2 }

/-- `s` with the instruction word that has the low `nbits` bits of `w` where the step takes its next
instruction from. -/
def State.withFetchWord (s : State) (nbits w : Nat) : State := placeWord (tableWord nbits w) s

end Sys2Proof.Machine
end

