-- ==== Sys2Proof/Machine/Assembly.lean ====
section
/-! DEFINITION. The assembler text of an instruction (30_encoding.md R63, R65): printing it and reading it, over lists of characters. -/

namespace Sys2Proof.Machine

/-! ## Disassembly (R65) -/

/-- The decimal digit of `d`, for `d` below 10. -/
def digitChar (d : Nat) : Char := Char.ofNat (48 + d)

/-- `n` in decimal, in at most `fuel` digits. -/
def decDigits : Nat → Nat → List Char
  | 0, _ => []
  | fuel + 1, n => if n < 10 then [digitChar n] else decDigits fuel (n / 10) ++ [digitChar (n % 10)]

/-- `rN`, `[A]` or `#V` (R63); a literal is printed reduced by `trunc8` (R56). -/
def showSource : Source → List Char
  | .direct r => 'r' :: decDigits 4 r.val
  | .indirect a => '[' :: decDigits 4 a.val ++ [']']
  | .immediate v => '#' :: decDigits 4 (trunc8 v).toNat

/-- ` -> d`. -/
def showDest (d : Source) : List Char := [' ', '-', '>', ' '] ++ showSource d

/-- The canonical text of an instruction (R63, R65). -/
def disassemble : Instr → List Char
  | .mov op1 res => ['M', 'O', 'V', ' '] ++ (showSource op1 ++ showDest res)
  | .add op1 op2 res => ['A', 'D', 'D', ' '] ++ (showSource op1 ++ ([',', ' '] ++ (showSource op2 ++ showDest res)))
  | .sub op1 op2 res => ['S', 'U', 'B', ' '] ++ (showSource op1 ++ ([',', ' '] ++ (showSource op2 ++ showDest res)))
  | .jmp offset => ['J', 'M', 'P', ' '] ++ showSource offset

/-! ## Assembly (R63); blanks, letter case and the sign of a literal are the model's own reading
(DESIGN CHOICE, notes/assumptions/18.md) -/

/-- A blank. -/
def isBlank (c : Char) : Bool := c.toNat == 32 || c.toNat == 9

/-- Drop leading blanks. -/
def skipBlanks : List Char → List Char
  | [] => []
  | c :: cs => if isBlank c then skipBlanks cs else c :: cs

/-- The text before a comment, which starts at `;`. -/
def dropComment : List Char → List Char
  | [] => []
  | c :: cs => if c = ';' then [] else c :: dropComment cs

/-- The value of a decimal digit. -/
def decDigit (c : Char) : Option Nat :=
  if 48 ≤ c.toNat ∧ c.toNat ≤ 57 then some (c.toNat - 48) else none

/-- The value of a hexadecimal digit. -/
def hexDigit (c : Char) : Option Nat :=
  if 48 ≤ c.toNat ∧ c.toNat ≤ 57 then some (c.toNat - 48)
  else if 97 ≤ c.toNat ∧ c.toNat ≤ 102 then some (c.toNat - 87)
  else if 65 ≤ c.toNat ∧ c.toNat ≤ 70 then some (c.toNat - 55)
  else none

/-- Read digits as long as there are any, most significant first. -/
def readDigits (base : Nat) (digit : Char → Option Nat) : Nat → List Char → Nat × List Char
  | acc, [] => (acc, [])
  | acc, c :: cs =>
    match digit c with
    | some d => readDigits base digit (acc * base + d) cs
    | none => (acc, c :: cs)

/-- A decimal number of at least one digit. -/
def readDec : List Char → Option (Nat × List Char)
  | [] => none
  | c :: cs =>
    match decDigit c with
    | some d => some (readDigits 10 decDigit d cs)
    | none => none

/-- A hexadecimal number of at least one digit, after its `0x`. -/
def readHex : List Char → Option (Nat × List Char)
  | [] => none
  | c :: cs =>
    match hexDigit c with
    | some d => some (readDigits 16 hexDigit d cs)
    | none => none

/-- A number, decimal or `0x` hexadecimal. -/
def readNumber : List Char → Option (Nat × List Char)
  | '0' :: 'x' :: cs => readHex cs
  | cs => readDec cs

/-- A number with an optional minus sign. -/
def readInteger : List Char → Option (Int × List Char)
  | '-' :: cs =>
    match readNumber cs with
    | some (n, rest) => some (-(n : Int), rest)
    | none => none
  | cs =>
    match readNumber cs with
    | some (n, rest) => some ((n : Int), rest)
    | none => none

/-- `rN` with N = 0..15. -/
def readRegister (cs : List Char) : Option (Source × List Char) :=
  match readDec cs with
  | some (n, rest) => if h : n < 16 then some (.direct ⟨n, h⟩, rest) else none
  | none => none

/-- `A]` with A = 0..1023, after the opening bracket. -/
def readCell (cs : List Char) : Option (Source × List Char) :=
  match readNumber cs with
  | some (n, ']' :: rest) => if h : n < 1024 then some (.indirect ⟨n, h⟩, rest) else none
  | some (_, _) => none
  | none => none

/-- `V`, reduced by `trunc8` (R56), after the `#`. -/
def readLiteral (cs : List Char) : Option (Source × List Char) :=
  match readInteger cs with
  | some (v, rest) => some (.immediate (trunc8 v).toNat, rest)
  | none => none

/-- An operand or a destination, after any blanks. -/
def readSource (cs : List Char) : Option (Source × List Char) :=
  match skipBlanks cs with
  | 'r' :: rest => readRegister rest
  | '[' :: rest => readCell rest
  | '#' :: rest => readLiteral rest
  | _ => none

/-- `-> d` and nothing after it but blanks. -/
def readDest (cs : List Char) : Option Source :=
  match skipBlanks cs with
  | '-' :: '>' :: rest =>
    match readSource rest with
    | some (d, tail) => if (skipBlanks tail).isEmpty then some d else none
    | none => none
  | _ => none

/-- `s -> d`. -/
def readUnary (k : Source → Source → Instr) (cs : List Char) : Option Instr :=
  match readSource cs with
  | some (s, rest) => (readDest rest).map (k s)
  | none => none

/-- `s, t -> d`. -/
def readBinary (k : Source → Source → Source → Instr) (cs : List Char) : Option Instr :=
  match readSource cs with
  | some (s, rest) =>
    match skipBlanks rest with
    | ',' :: rest' =>
      match readSource rest' with
      | some (t, rest'') => (readDest rest'').map (k s t)
      | none => none
    | _ => none
  | none => none

/-- `s` and nothing after it but blanks. -/
def readJump (cs : List Char) : Option Instr :=
  match readSource cs with
  | some (s, tail) => if (skipBlanks tail).isEmpty then some (.jmp s) else none
  | none => none

/-- One line of assembler text (R63): the instruction it stands for. -/
def assembleLine (line : List Char) : Option Instr :=
  match skipBlanks (dropComment line) with
  | 'M' :: 'O' :: 'V' :: c :: rest => if isBlank c then readUnary .mov rest else none
  | 'A' :: 'D' :: 'D' :: c :: rest => if isBlank c then readBinary .add rest else none
  | 'S' :: 'U' :: 'B' :: c :: rest => if isBlank c then readBinary .sub rest else none
  | 'J' :: 'M' :: 'P' :: c :: rest => if isBlank c then readJump rest else none
  | _ => none

end Sys2Proof.Machine
end

