-- ==== Sys2Proof/Machine/Unbounded.lean ====
section
/-! DEFINITION. The event machine as the source has it, its latches holding integers of any size (10_state.md R20, 41_pipeline.md R103, conflict C6): what the 8-bit machine is compared with. -/

namespace Sys2Proof.Machine

/-- An event with unbounded latches (10_state.md R19, R20). -/
inductive WideEvent where
  | op1Fetch (instr : Instr)
  | op2Fetch (instr : Instr) (op1 : Int)
  | writeback (instr : Instr) (result : Int)
  | exception (cause : Cause)
  deriving DecidableEq, Repr

/-- The unbounded machine: the storage and the counters of a State, whose own `pend` stands for
nothing here, and a pending event with unbounded latches. -/
structure Wide where
  base : State
  pend : Option WideEvent
  deriving DecidableEq, Repr

/-- What a step of the unbounded machine answers. -/
abbrev WideResult := Host.Outcome Wide Fault Refusal

/-- Retire: the storage and the counters as `o` leaves them, no event pending. -/
def wideRetire (o : Result) : WideResult :=
  match o with
  | .next s => .next ⟨s, none⟩
  | .fault r => .fault r
  | .refused r => .refused r

/-- `wb_decide` (41_pipeline.md R84). -/
def wideWbDecide (i : Instr) (result : Int) (s : State) : WideResult :=
  match dest i with
  | .direct r => wideRetire (write (.direct r) result s)
  | .indirect _ => .next ⟨s, some (.writeback i result)⟩
  | .immediate _ => .next ⟨s, some (.exception .immDest)⟩

/-- `op2_stage` (R83). -/
def wideOp2Stage (i : Instr) (v1 : Int) (s : State) : WideResult :=
  match i with
  | .mov _ _ => .next ⟨s, some (.exception .op2Single)⟩
  | .add _ op2 _ =>
    if isIndirect op2 then .next ⟨s, some (.op2Fetch i v1)⟩ else wideWbDecide i (compute i v1 (read op2 s)) s
  | .sub _ op2 _ =>
    if isIndirect op2 then .next ⟨s, some (.op2Fetch i v1)⟩ else wideWbDecide i (compute i v1 (read op2 s)) s
  | .jmp _ => .next ⟨s, some (.exception .op2Single)⟩

/-- `after_op1` (R82). -/
def wideAfterOp1 (i : Instr) (v1 : Int) (s : State) : WideResult :=
  match i with
  | .mov _ _ => wideWbDecide i (compute i v1 0) s
  | .add _ _ _ => wideOp2Stage i v1 s
  | .sub _ _ _ => wideOp2Stage i v1 s
  | .jmp _ =>
    if s.params.jumpWbEvent then .next ⟨s, some (.writeback i v1)⟩ else wideRetire (write (.direct 0) v1 s)

/-- `issue` (R85). -/
def wideIssue (i : Instr) (w : Wide) : WideResult :=
  match w.pend with
  | some _ => .refused .notQuiescent
  | none =>
    if isIndirect (firstSrc i) then .next ⟨w.base.chargeCycle, some (.op1Fetch i)⟩
    else wideAfterOp1 i (read (firstSrc i) w.base) w.base.chargeCycle

/-- `tick` (R86 to R90) on the storage and counters `s`, consuming `e`. -/
def wideTick (e : WideEvent) (s : State) : WideResult :=
  match e with
  | .op1Fetch i => wideAfterOp1 i (read (firstSrc i) s) s.chargeCycle.countFetch1
  | .op2Fetch i v1 =>
    match i with
    | .mov _ _ => .next ⟨s.chargeCycle.countFetch2, some (.exception .op2Single)⟩
    | .add _ op2 _ => wideWbDecide i (compute i v1 (read op2 s)) s.chargeCycle.countFetch2
    | .sub _ op2 _ => wideWbDecide i (compute i v1 (read op2 s)) s.chargeCycle.countFetch2
    | .jmp _ => .next ⟨s.chargeCycle.countFetch2, some (.exception .op2Single)⟩
  | .writeback i v => wideRetire (write (dest i) v s.chargeCycle.countWriteback)
  | .exception c => .next ⟨takeException c s.chargeCycle, none⟩

/-- The 8-bit machine's event for an event of the unbounded one: latches and literals reduced by
`trunc8` (R103). -/
def narrowEvent : WideEvent → Event
  | .op1Fetch i => .op1Fetch i.normalise
  | .op2Fetch i v => .op2Fetch i.normalise (trunc8 v)
  | .writeback i v => .writeback i.normalise (trunc8 v)
  | .exception c => .exception c

/-- The 8-bit machine's state for a state of the unbounded one. -/
def narrow (w : Wide) : State := { w.base with pend := w.pend.map narrowEvent }

/-- The 8-bit machine's answer for an answer of the unbounded one. -/
def narrowResult (o : WideResult) : Result :=
  match o with
  | .next w => .next (narrow w)
  | .fault r => .fault r
  | .refused r => .refused r

end Sys2Proof.Machine
end

