-- ==== Sys2Proof/Safety.lean ====
section
/-! DEFINITION. What claims are stated in: the machine's invariant, walks, charges, and the two levels of a run. -/

namespace Sys2Proof.Machine

/-! ## Shapes of an instruction -/

/-- The second operand; an instruction with one operand has none, and `compute` ignores what stands
here for it (41_pipeline.md R81). -/
def secondSrc : Instr → Source
  | .mov _ _ => .immediate 0
  | .add _ op2 _ => op2
  | .sub _ op2 _ => op2
  | .jmp _ => .immediate 0

/-- Whether an instruction is a Jump. -/
def isJump : Instr → Bool
  | .mov _ _ => false
  | .add _ _ _ => false
  | .sub _ _ _ => false
  | .jmp _ => true

/-- The exact integer result of an instruction on the operands a state holds (41_pipeline.md R81, R99). -/
def resultOf (i : Instr) (s : State) : Int := compute i (read (firstSrc i) s) (read (secondSrc i) s)

/-- The register a destination names. -/
def regOf : Source → Option (Fin 16)
  | .direct r => some r
  | .indirect _ => none
  | .immediate _ => none

/-- The address of the memory cell a destination names. -/
def cellOf : Source → Option Nat
  | .direct _ => none
  | .indirect a => some a.val
  | .immediate _ => none

/-! ## What one instruction leaves -/

/-- Nothing but the harness's and the build's fields is fixed here: parameters, waiting inputs and
diagnostics are the same, and no event is pending. -/
def Quiet (s t : State) : Prop :=
  t.pend = none ∧ t.params = s.params ∧ t.inputs = s.inputs ∧ t.diagnostics = s.diagnostics

/-- Register or cell `d` holds `v`, and every other register and every other cell is unchanged. -/
def StoresOnly (s t : State) (d : Source) (v : Byte) : Prop :=
  (∀ r, t.reg r = if regOf d = some r then v else s.reg r) ∧
    ∀ a, t.cell a = if cellOf d = some a then v else s.cell a

/-- Every register and every cell is unchanged. -/
def SameStorage (s t : State) : Prop := (∀ r, t.reg r = s.reg r) ∧ ∀ a, t.cell a = s.cell a

/-- The five counters rose by these amounts. -/
def Charged (s t : State) (cycles fetch1 fetch2 writeback exceptions : Nat) : Prop :=
  t.cycles = s.cycles + cycles ∧ t.fetch1 = s.fetch1 + fetch1 ∧ t.fetch2 = s.fetch2 + fetch2 ∧
    t.writeback = s.writeback + writeback ∧ t.exceptions = s.exceptions + exceptions

/-- The cycle-accounting formula of 41_pipeline.md R97, `jumpWb` being JUMP_WB_EVENT. -/
def cyclesOf (jumpWb : Bool) (i : Instr) : Nat :=
  1 + (isIndirect (firstSrc i)).toNat + (isIndirect (secondSrc i)).toNat +
    (if isJump i then jumpWb.toNat else (isIndirect (dest i)).toNat + (isImmediate (dest i)).toNat)

/-! ## Walks (41_pipeline.md R80, R95, R96) -/

/-- The stages that are clock cycles of their own after the issue cycle. -/
inductive Stage where
  | op1Fetch
  | op2Fetch
  | writeback
  | exception
  deriving DecidableEq, Repr

/-- The stage that consumes an event. -/
def Event.stage : Event → Stage
  | .op1Fetch _ => .op1Fetch
  | .op2Fetch _ _ => .op2Fetch
  | .writeback _ _ => .writeback
  | .exception _ => .exception

/-- The stages of the next ticks, at most `n` of them, as long as an event is pending. -/
def stagesFrom : Nat → State → List Stage
  | 0, _ => []
  | n + 1, s =>
    match s.pend with
    | none => []
    | some e =>
      e.stage ::
        match tick e s with
        | .next t => stagesFrom n t
        | .fault _ => []
        | .refused _ => []

/-- The stages of an instruction after its issue cycle, looking one tick further than any takes. -/
def walk (i : Instr) (s : State) : List Stage :=
  match issue i s with
  | .next t => stagesFrom 4 t
  | .fault _ => []
  | .refused _ => []

/-- The instruction an event carries. -/
def carries : Event → Option Instr
  | .op1Fetch i => some i
  | .op2Fetch i _ => some i
  | .writeback i _ => some i
  | .exception _ => none

/-- `u` is reached from `s` by ticking while an event is pending (the loop of 41_pipeline.md R91). -/
inductive TicksTo : State → State → Prop where
  | done {s : State} (quiescent : s.pend = none) : TicksTo s s
  | more {s t u : State} {e : Event} (pending : s.pend = some e) (ticked : tick e s = .next t)
      (rest : TicksTo t u) : TicksTo s u

/-! ## The invariant -/

/-- What 10_state.md R21 says each pending event may hold. -/
def eventOk (jumpWb : Bool) : Event → Bool
  | .op1Fetch i => isIndirect (firstSrc i)
  | .op2Fetch i _ => isIndirect (secondSrc i)
  | .writeback i _ => if isJump i then jumpWb else isIndirect (dest i)
  | .exception c => decide (c = .immDest)

/-- R21 of a state. -/
def pendOk (s : State) : Bool :=
  match s.pend with
  | none => true
  | some e => eventOk s.params.jumpWbEvent e

/-- The machine's invariant: memory in canonical form (addresses below 1024), a pending event that
an instruction can produce (10_state.md R21), and no more stage visits than busy cycles (10_state.md
section 5, field table). -/
structure Inv (s : State) : Prop where
  memWf : Memory.wf s.mem = true
  pendOk : pendOk s = true
  visits : s.fetch1 + s.fetch2 + s.writeback + s.exceptions ≤ s.cycles

/-! ## The port level against the call level (50_interface.md R132, R133, R140) -/

/-- The core accepts the presented word at an edge with inputs `p` (R132). -/
def accepts (p : PortIn) (s : State) : Bool := !p.rst && ready s && p.instrValid

/-- `n` steps, stopping at the first fault or refusal. -/
def run : Nat → State → Result
  | 0, s => .next s
  | n + 1, s => andThen (step s) (run n)

/-- The words the core accepts at these edges, in order. -/
def acceptedWords : List PortIn → State → List Word
  | [], _ => []
  | p :: ps, s =>
    (if accepts p s then [p.instr] else []) ++
      match edge p s with
      | .next t => acceptedWords ps t
      | .fault _ => []
      | .refused _ => []

/-- The number of these edges at which the core issues or ticks. -/
def busyEdges : List PortIn → State → Nat
  | [], _ => 0
  | p :: ps, s =>
    (if accepts p s || (!p.rst && !ready s) then 1 else 0) +
      match edge p s with
      | .next t => busyEdges ps t
      | .fault _ => 0
      | .refused _ => 0

/-- Two states hold the same registers, memory and pending event, of the same build, with the same
inputs waiting: they may differ in the counters and in the diagnostics emitted so far. -/
def SameButCounters (s t : State) : Prop :=
  s.x = t.x ∧ s.mem = t.mem ∧ s.pend = t.pend ∧ s.params = t.params ∧ s.inputs = t.inputs

/-- Two sources have the same addressing mode. -/
def sameMode : Source → Source → Bool
  | .direct _, .direct _ => true
  | .indirect _, .indirect _ => true
  | .immediate _, .immediate _ => true
  | .direct _, .indirect _ => false
  | .direct _, .immediate _ => false
  | .indirect _, .direct _ => false
  | .indirect _, .immediate _ => false
  | .immediate _, .direct _ => false
  | .immediate _, .indirect _ => false

/-- The same shape (41_pipeline.md R98): the same kind of instruction and the same addressing modes. -/
def sameShape : Instr → Instr → Bool
  | .mov a d, .mov a' d' => sameMode a a' && sameMode d d'
  | .add a b d, .add a' b' d' => sameMode a a' && sameMode b b' && sameMode d d'
  | .add a b d, .sub a' b' d' => sameMode a a' && sameMode b b' && sameMode d d'
  | .sub a b d, .add a' b' d' => sameMode a a' && sameMode b b' && sameMode d d'
  | .sub a b d, .sub a' b' d' => sameMode a a' && sameMode b b' && sameMode d d'
  | .jmp a, .jmp a' => sameMode a a'
  | .mov _ _, .add _ _ _ => false
  | .mov _ _, .sub _ _ _ => false
  | .mov _ _, .jmp _ => false
  | .add _ _ _, .mov _ _ => false
  | .add _ _ _, .jmp _ => false
  | .sub _ _ _, .mov _ _ => false
  | .sub _ _ _, .jmp _ => false
  | .jmp _, .mov _ _ => false
  | .jmp _, .add _ _ _ => false
  | .jmp _, .sub _ _ _ => false

/-! ## The used fields of a word (30_encoding.md R54, R55, R58) -/

/-- A source field in one of the three hexadecimal ranges of R54's table. -/
def validField (f : Field) : Bool :=
  decide (f.toNat ≤ 0x00F) || (decide (0x400 ≤ f.toNat) && decide (f.toNat ≤ 0x7FF)) ||
    (decide (0x800 ≤ f.toNat) && decide (f.toNat ≤ 0x8FF))

/-- R58, by the numbers of the word's hexadecimal digits: the opcode is one of the four and every
used source field is in a range of R54. -/
def validWord (w : Word) : Bool :=
  let opc := w.toNat / 2 ^ 36
  let s1 := validField (BitVec.ofNat 12 (w.toNat / 2 ^ 24))
  let s2 := validField (BitVec.ofNat 12 (w.toNat / 2 ^ 12))
  let sd := validField (BitVec.ofNat 12 w.toNat)
  (decide (opc = 0) && s1 && sd) || (decide (opc = 1) && s1 && s2 && sd) ||
    (decide (opc = 2) && s1 && s2 && sd) || (decide (opc = 3) && s1)

/-- The fields the hardware ignores (R57) are 0x000. -/
def ignoredFieldsZero (w : Word) : Bool :=
  let opc := w.toNat / 2 ^ 36
  let s2 := w.toNat / 2 ^ 12 % 2 ^ 12
  let sd := w.toNat % 2 ^ 12
  (decide (opc ≠ 0) || decide (s2 = 0)) && (decide (opc ≠ 3) || (decide (s2 = 0) && decide (sd = 0)))

end Sys2Proof.Machine
end

