-- ==== Sys2Proof/Certificates/Slice0/Obligations.lean ====
section
/-! DEFINITION. The statements for the provers. In every docstring "derived" names a clause that rests on a decision or an inference the spec marks as its own, with its place. -/

open Sys2Proof Sys2Proof.Machine

/-! ## Encoding -/

/-- Decoding an encoded well-formed instruction gives it back; for any instruction it gives its
normal form. Derived: 30_encoding.md section 6 (decision D1) and section 4 (decision D5). -/
def Obligations.EncodedInstructionDecodesBack : Prop :=
  (∀ i : Instr, i.wellFormed = true → decode (encode i) = .ok i) ∧
    ∀ i : Instr, decode (encode i) = .ok i.normalise

/-- What a valid word decodes to is well-formed, and encodes to the same word when its ignored fields
are zero. Derived: 30_encoding.md section 6 (decision D1). -/
def Obligations.DecodedWordEncodesBack : Prop :=
  ∀ (w : Word) (i : Instr), decode w = .ok i →
    i.wellFormed = true ∧ (ignoredFieldsZero w = true → encode i = w)

/-- A word is refused exactly when its opcode is reserved or a used source field is outside the
ranges of the field table, and the machine then gives it no meaning, called or presented at an
accepting edge. Derived: 30_encoding.md sections 3 and 5 (decisions D1, D8). -/
def Obligations.InvalidWordsAreRefused : Prop :=
  (∀ w : Word, (∃ e, decode w = .error e) ↔ validWord w = false) ∧
    (∀ (s : State) (w : Word) (rest : List HarnessMove),
      s.inputs = .callWord w :: rest → validWord w = false → ∃ e, step s = .refused (.invalidWord e)) ∧
    ∀ (s : State) (p : PortIn) (rest : List HarnessMove),
      s.inputs = .edge p :: rest → accepts p s = true → validWord p.instr = false →
        ∃ e, step s = .refused (.invalidWord e)

/-- Words of MOV that agree in opcode, S1 and SD, and words of JMP that agree in opcode and S1, decode
alike. Derived: 30_encoding.md section 4, unused fields (decision D9). -/
def Obligations.IgnoredFieldsDoNotMatter : Prop :=
  (∀ w w' : Word, w.toNat / 2 ^ 36 = 0 → w.toNat / 2 ^ 24 = w'.toNat / 2 ^ 24 →
      w.toNat % 2 ^ 12 = w'.toNat % 2 ^ 12 → decode w = decode w') ∧
    ∀ w w' : Word, w.toNat / 2 ^ 36 = 3 → w.toNat / 2 ^ 24 = w'.toNat / 2 ^ 24 → decode w = decode w'

/-- Words of the spec's tables decode to the instructions it gives for them, and its invalid words
decode to none. Derived: 95_test_vectors.md part 2.1 (decision D1). -/
def Obligations.SpecWordsDecode : Prop :=
  decode 0x0805000003#40 = .ok (.mov (.immediate 5) (.direct 3)) ∧
    decode 0x1001404002#40 = .ok (.add (.direct 1) (.indirect 4) (.direct 2)) ∧
    decode 0x200F8FF7FF#40 = .ok (.sub (.direct 15) (.immediate 255) (.indirect 1023)) ∧
    decode 0x37FF000000#40 = .ok (.jmp (.indirect 1023)) ∧
    decode 0x0805FFF003#40 = .ok (.mov (.immediate 5) (.direct 3)) ∧
    decode 0x3805FFF801#40 = .ok (.jmp (.immediate 5)) ∧
    decode 0x4000000000#40 = .error .reservedOpcode ∧
    decode 0x0C00000003#40 = .error .reservedMode ∧
    decode 0x0010000003#40 = .error .nonzeroMustBeZero ∧
    decode 0x0900000003#40 = .error .nonzeroMustBeZero

/-- The assembler reads back the canonical text of every instruction, its literals reduced to 8 bits.
Derived: 30_encoding.md section 7 (decision D9) and section 4 (decision D5). -/
def Obligations.AssemblerReadsCanonicalText : Prop :=
  ∀ i : Instr, assembleLine (disassemble i) = some i.normalise

/-! ## A step runs the decoded instruction -/

/-- When the harness's next move is a call of an instruction, or of a word that decodes to it, the
step is `exec` of that instruction on the state without that move; and the word placed for the host
is run so. Derived: 50_interface.md section 1; the list of moves is the model's (notes/assumptions/1.md, 4.md). -/
def Obligations.StepRunsCalledInstruction : Prop :=
  (∀ (s : State) (i : Instr) (rest : List HarnessMove),
      s.inputs = .call i :: rest → step s = exec i { s with inputs := rest }) ∧
    (∀ (s : State) (w : Word) (i : Instr) (rest : List HarnessMove),
      s.inputs = .callWord w :: rest → decode w = .ok i → step s = exec i { s with inputs := rest }) ∧
    ∀ (s : State) (w : Nat) (i : Instr),
      decodeTableWord 40 w = some i → step (s.withFetchWord 40 w) = exec i { s with pend := none }

/-! ## What each instruction does -/

/-- MOV to a register or a cell stores its operand there, changes nothing else, and charges its
cycles. Derived: 42_unary.md, the closed form of MOV. -/
def Obligations.MovStoresOperand : Prop :=
  ∀ (op1 res : Source) (s : State), s.pend = none → isImmediate res = false →
    ∃ t, exec (.mov op1 res) s = .next t ∧
      StoresOnly s t res (trunc8 (read op1 s)) ∧ Quiet s t ∧
      Charged s t (1 + (isIndirect op1).toNat + (isIndirect res).toNat)
        (isIndirect op1).toNat 0 (isIndirect res).toNat 0

/-- ADD to a register or a cell stores the sum there, changes nothing else, and charges its cycles.
Derived: 43_binary.md, the closed form of ADD. -/
def Obligations.AddStoresSum : Prop :=
  ∀ (op1 op2 res : Source) (s : State), s.pend = none → isImmediate res = false →
    ∃ t, exec (.add op1 op2 res) s = .next t ∧
      StoresOnly s t res (trunc8 (read op1 s + read op2 s)) ∧ Quiet s t ∧
      Charged s t (1 + (isIndirect op1).toNat + (isIndirect op2).toNat + (isIndirect res).toNat)
        (isIndirect op1).toNat (isIndirect op2).toNat (isIndirect res).toNat 0

/-- SUB to a register or a cell stores the first operand minus the second there, changes nothing
else, and charges its cycles. Derived: 43_binary.md, the closed form of SUB (decision D5). -/
def Obligations.SubStoresDifference : Prop :=
  ∀ (op1 op2 res : Source) (s : State), s.pend = none → isImmediate res = false →
    ∃ t, exec (.sub op1 op2 res) s = .next t ∧
      StoresOnly s t res (trunc8 (read op1 s - read op2 s)) ∧ Quiet s t ∧
      Charged s t (1 + (isIndirect op1).toNat + (isIndirect op2).toNat + (isIndirect res).toNat)
        (isIndirect op1).toNat (isIndirect op2).toNat (isIndirect res).toNat 0

/-- JMP writes its operand to register 0, changes no other register and no cell, leaves the harness's
next move what it was, and charges its cycles in either reading of JUMP_WB_EVENT. Derived: 44_jump.md,
the closed form of JMP (decision D6). -/
def Obligations.JmpWritesRegisterZero : Prop :=
  ∀ (offset : Source) (s : State), s.pend = none →
    ∃ t, exec (.jmp offset) s = .next t ∧
      StoresOnly s t (.direct 0) (trunc8 (read offset s)) ∧ Quiet s t ∧
      Charged s t (1 + (isIndirect offset).toNat + s.params.jumpWbEvent.toNat)
        (isIndirect offset).toNat 0 s.params.jumpWbEvent.toNat 0

/-- MOV, ADD and SUB with a literal destination complete as an exception: nothing is written, the
operand fetches are charged, the exception is counted and its cause emitted. Derived: 60_exceptions.md
sections 1 and 2 (decisions D7, D16, conflict C2); the record the emitted cause joins is the model's,
no state of the hardware (notes/assumptions/11.md). -/
def Obligations.LiteralDestinationTakesException : Prop :=
  ∀ (i : Instr) (s : State), s.pend = none → isImmediate (dest i) = true →
    ∃ t, exec i s = .next t ∧ SameStorage s t ∧ t.pend = none ∧ t.params = s.params ∧ t.inputs = s.inputs ∧
      t.diagnostics = s.diagnostics ++ [.immDest] ∧
      Charged s t (2 + (isIndirect (firstSrc i)).toNat + (isIndirect (secondSrc i)).toNat)
        (isIndirect (firstSrc i)).toNat (isIndirect (secondSrc i)).toNat 0 1

/-- After an instruction that faults, any instruction does to registers and memory what it would have
done before it, with the same charges: the fault left no trace but its counts. -/
def Obligations.RunContinuesUnaffectedByFault : Prop :=
  ∀ (i j : Instr) (s t : State), s.pend = none → isImmediate (dest i) = true → exec i s = .next t →
    t.pend = none ∧ ∃ u v, exec j s = .next u ∧ exec j t = .next v ∧ v.x = u.x ∧ v.mem = u.mem ∧ v.pend = u.pend ∧
      ∃ c f1 f2 wb ex, Charged s u c f1 f2 wb ex ∧ Charged t v c f1 f2 wb ex

/-- A MOV of a register, or of a cell, onto itself leaves all registers and the memory as they were.
Derived: 30_encoding.md section 7 and 42_unary.md, corner cases. -/
def Obligations.MovOntoItselfOnlyCounts : Prop :=
  (∀ (r : Fin 16) (s : State), s.pend = none →
      exec (.mov (.direct r) (.direct r)) s = .next { s with cycles := s.cycles + 1 }) ∧
    ∀ (a : Fin 1024) (s : State), s.pend = none → Memory.wf s.mem = true →
      exec (.mov (.indirect a) (.indirect a)) s =
        .next { s with cycles := s.cycles + 3, fetch1 := s.fetch1 + 1, writeback := s.writeback + 1 }

/-- Swapping the operands of an ADD keeps the value and the number of cycles, and swaps what the two
fetch counters are charged. Derived: 43_binary.md, arithmetic laws. -/
def Obligations.AddCommutesInValueNotInFetches : Prop :=
  ∀ (a b d : Source) (s : State), s.pend = none →
    ∃ t u, exec (.add a b d) s = .next t ∧ exec (.add b a d) s = .next u ∧
      t.x = u.x ∧ t.mem = u.mem ∧ t.cycles = u.cycles ∧ t.writeback = u.writeback ∧ t.exceptions = u.exceptions ∧
      t.fetch1 + s.fetch2 = u.fetch2 + s.fetch1 ∧ t.fetch2 + s.fetch1 = u.fetch1 + s.fetch2

/-- The stored sum is the sum modulo 256 and the stored difference is the difference, 256 added when
it is negative, wherever the two bytes come from. Derived: 43_binary.md, arithmetic laws (decision
D5, general knowledge G1). -/
def Obligations.SumsAndDifferencesWrap : Prop :=
  ∀ (op1 op2 : Source) (r : Fin 16) (s : State) (a b : Byte), s.pend = none →
    read op1 s = a.toNat → read op2 s = b.toNat →
    (∃ t, exec (.add op1 op2 (.direct r)) s = .next t ∧ (t.reg r).toNat = (a.toNat + b.toNat) % 256) ∧
      ∃ t, exec (.sub op1 op2 (.direct r)) s = .next t ∧
        (t.reg r).toNat = if b.toNat ≤ a.toNat then a.toNat - b.toNat else a.toNat + 256 - b.toNat

/-- A JMP leaves exactly what a MOV of the same operand to register 0 leaves, but for the Writeback
event it charges. Derived: 44_jump.md, rule on the writeback decision (decision D6). -/
def Obligations.JmpEqualsMovToRegisterZero : Prop :=
  ∀ (src : Source) (s : State), s.pend = none →
    ∃ u, exec (.mov src (.direct 0)) s = .next u ∧
      exec (.jmp src) s =
        .next { u with
          cycles := u.cycles + s.params.jumpWbEvent.toNat
          writeback := u.writeback + s.params.jumpWbEvent.toNat }

/-- A Binary with both operands and its destination in memory takes 4 cycles and one visit of each
stage, and no instruction takes more. Derived: 43_binary.md, all-memory Binary, and 41_pipeline.md
section 5 on termination. -/
def Obligations.AllMemoryBinaryTakesFourCycles : Prop :=
  ∀ (a b c : Fin 1024) (s : State), s.pend = none →
    (∃ t, exec (.add (.indirect a) (.indirect b) (.indirect c)) s = .next t ∧ Charged s t 4 1 1 1 0) ∧
      (∃ t, exec (.sub (.indirect a) (.indirect b) (.indirect c)) s = .next t ∧ Charged s t 4 1 1 1 0) ∧
      ∀ (j : Instr) (u : State), exec j s = .next u → u.cycles ≤ s.cycles + 4

/-- Every register, register 0 among them, reads back what was last written to it, whichever kind of
instruction wrote it and whichever kind reads it. -/
def Obligations.RegistersReadBackWhatWasWritten : Prop :=
  ∀ (i : Instr) (r : Fin 16) (s : State), s.pend = none → dest i = .direct r →
    ∃ t, exec i s = .next t ∧ t.reg r = trunc8 (resultOf i s) ∧
      ∀ d : Source, isImmediate d = false →
        (∃ u, exec (.mov (.direct r) d) t = .next u ∧ read d u = (t.reg r).toNat) ∧
          (∃ u, exec (.add (.direct r) (.immediate 0) d) t = .next u ∧ read d u = (t.reg r).toNat) ∧
          (∃ u, exec (.add (.immediate 0) (.direct r) d) t = .next u ∧ read d u = (t.reg r).toNat) ∧
          (∃ u, exec (.sub (.direct r) (.immediate 0) d) t = .next u ∧ read d u = (t.reg r).toNat) ∧
          (∃ u, exec (.sub (.immediate 255) (.direct r) d) t = .next u ∧ read d u = 255 - (t.reg r).toNat) ∧
          ∃ u, exec (.jmp (.direct r)) t = .next u ∧ read (.direct 0) u = (t.reg r).toNat

/-- The result an instruction writes, to a register or a cell, is what the next instruction reads
there, with no wait between them. -/
def Obligations.NextInstructionSeesResult : Prop :=
  ∀ (i : Instr) (s : State), s.pend = none → isImmediate (dest i) = false →
    ∃ t, exec i s = .next t ∧ read (dest i) t = (trunc8 (resultOf i s)).toNat ∧
      ∀ j : Instr, isImmediate (dest j) = false →
        ∃ u, exec j t = .next u ∧ read (dest j) u = (trunc8 (resultOf j t)).toNat

/-! ## The event machine, one clock edge at a time -/

/-- The issue cycle of a quiescent core: `cycles` rises by one and no other counter, the fetch of a
memory operand is deferred to a cycle of its own, any other first operand is read in this cycle, which
goes on with it, and an event that carries an instruction carries this one. With an event pending the
issue is not enabled. -/
def Obligations.IssueCycle : Prop :=
  (∀ (i : Instr) (s : State), s.pend = none →
    (isIndirect (firstSrc i) = true →
        issue i s = .next { s with cycles := s.cycles + 1, pend := some (.op1Fetch i) }) ∧
      (isIndirect (firstSrc i) = false →
        issue i s = afterOp1 i (read (firstSrc i) s) { s with cycles := s.cycles + 1 }) ∧
      ∃ t, issue i s = .next t ∧ Charged s t 1 0 0 0 0 ∧
        ∀ e j, t.pend = some e → carries e = some j → j = i) ∧
    ∀ (i : Instr) (s : State) (e : Event), s.pend = some e → issue i s = .refused .notQuiescent

/-- At an edge with no reset, a quiescent core that is presented a valid word issues its instruction.
Derived: 50_interface.md section 2 (decision D2). -/
def Obligations.AcceptingEdgeIssues : Prop :=
  ∀ (s : State) (p : PortIn) (i : Instr) (rest : List HarnessMove), s.inputs = .edge p :: rest →
    p.rst = false → p.instrValid = true → s.pend = none → decode p.instr = .ok i →
    step s = issue i { s with inputs := rest }

/-- With its first operand resolved, a MOV goes to the writeback decision, an ADD or SUB to its second
operand, which is fetched in its own cycle if it is in memory, and a JMP to its Writeback event, or
straight to register 0 in the other reading. Derived: 41_pipeline.md section 3 (decision D6). -/
def Obligations.FirstOperandIsDispatchedByKind : Prop :=
  ∀ (s : State) (v : Int),
    (∀ op1 res, afterOp1 (.mov op1 res) v s = wbDecide (.mov op1 res) v s) ∧
      (∀ op1 op2 res, afterOp1 (.add op1 op2 res) v s =
        if isIndirect op2 then .next { s with pend := some (.op2Fetch (.add op1 op2 res) (trunc8 v)) }
        else wbDecide (.add op1 op2 res) (v + read op2 s) s) ∧
      (∀ op1 op2 res, afterOp1 (.sub op1 op2 res) v s =
        if isIndirect op2 then .next { s with pend := some (.op2Fetch (.sub op1 op2 res) (trunc8 v)) }
        else wbDecide (.sub op1 op2 res) (v - read op2 s) s) ∧
      ∀ offset, afterOp1 (.jmp offset) v s =
        if s.params.jumpWbEvent then .next { s with pend := some (.writeback (.jmp offset) (trunc8 v)) }
        else .next (s.setReg 0 (trunc8 v))

/-- The writeback decision of a Unary or Binary: a register is written at once and the instruction
retires, a cell is written in a cycle of its own, a literal raises the exception instead of the
store, its operand fetches having been performed and charged. -/
def Obligations.WritebackIsDecidedByDestination : Prop :=
  ∀ (i : Instr) (result : Int) (s : State), isJump i = false → s.pend = none →
    (∀ r, dest i = .direct r → ∃ t, wbDecide i result s = .next t ∧
        StoresOnly s t (.direct r) (trunc8 result) ∧ Quiet s t ∧ Charged s t 0 0 0 0 0) ∧
      (∀ a, dest i = .indirect a →
        wbDecide i result s = .next { s with pend := some (.writeback i (trunc8 result)) }) ∧
      ∀ v, dest i = .immediate v →
        wbDecide i result s = .next { s with pend := some (.exception .immDest) } ∧
          ∃ t, exec i s = .next t ∧ t.fetch1 = s.fetch1 + (isIndirect (firstSrc i)).toNat ∧
            t.fetch2 = s.fetch2 + (isIndirect (secondSrc i)).toNat

/-- The tick that consumes an Op1Fetch event charges a cycle and `fetch1`, reads the first operand,
and goes on in the same cycle. -/
def Obligations.Op1FetchTick : Prop :=
  ∀ (i : Instr) (s : State),
    tick (.op1Fetch i) s = afterOp1 i (read (firstSrc i) s)
      { s with pend := none, cycles := s.cycles + 1, fetch1 := s.fetch1 + 1 }

/-- The tick that consumes an Op2Fetch event charges a cycle and `fetch2`, reads the second operand of
a Binary and goes to the writeback decision in the same cycle; on an instruction with one operand it
raises OP2_SINGLE, which the invariant rules out. -/
def Obligations.Op2FetchTick : Prop :=
  ∀ (v1 : Byte) (s : State),
    (∀ op1 op2 res, tick (.op2Fetch (.add op1 op2 res) v1) s =
        wbDecide (.add op1 op2 res) (v1.toNat + read op2 s)
          { s with pend := none, cycles := s.cycles + 1, fetch2 := s.fetch2 + 1 }) ∧
      (∀ op1 op2 res, tick (.op2Fetch (.sub op1 op2 res) v1) s =
        wbDecide (.sub op1 op2 res) (v1.toNat - read op2 s)
          { s with pend := none, cycles := s.cycles + 1, fetch2 := s.fetch2 + 1 }) ∧
      (∀ op1 res, tick (.op2Fetch (.mov op1 res) v1) s = .next
        { s with pend := some (.exception .op2Single), cycles := s.cycles + 1, fetch2 := s.fetch2 + 1 }) ∧
      (∀ offset, tick (.op2Fetch (.jmp offset) v1) s = .next
        { s with pend := some (.exception .op2Single), cycles := s.cycles + 1, fetch2 := s.fetch2 + 1 }) ∧
      ∀ i, Inv s → s.pend = some (.op2Fetch i v1) →
        ∃ op1 op2 res, i = .add op1 op2 res ∨ i = .sub op1 op2 res

/-- The tick that consumes a Writeback event charges a cycle and `writeback`, stores the latched
result in the instruction's destination, register 0 for a JMP, and retires the instruction. Under the
invariant that destination is a cell for a Unary or Binary; a literal would be the logic fault. -/
def Obligations.WritebackTick : Prop :=
  ∀ (i : Instr) (v : Byte) (s : State),
    (isImmediate (dest i) = false → ∃ t, tick (.writeback i v) s = .next t ∧ StoresOnly s t (dest i) v ∧
        Quiet s t ∧ Charged s t 1 0 0 1 0) ∧
      (∀ offset, i = .jmp offset → dest i = .direct 0) ∧
      (Inv s → s.pend = some (.writeback i v) → isJump i = false → isIndirect (dest i) = true) ∧
      (isImmediate (dest i) = true → tick (.writeback i v) s = .fault .logicFault)

/-- The tick that consumes an Exception event charges a cycle, counts the exception, emits its cause
and retires the instruction; it does nothing else. Derived: 41_pipeline.md section 4 and
60_exceptions.md section 2 (the cause code is decision D7); the record the emitted cause joins is the
model's way to hold an output, no state of the hardware (notes/assumptions/11.md). -/
def Obligations.ExceptionTick : Prop :=
  ∀ (c : Cause) (s : State),
    tick (.exception c) s = .next
      { s with
        pend := none
        cycles := s.cycles + 1
        exceptions := s.exceptions + 1
        diagnostics := s.diagnostics ++ [c] }

/-- At an edge with no reset, no instruction and no event, and when the harness has no more moves,
nothing changes. Derived: 50_interface.md section 2 (decision D12); the end of the moves is the
model's (notes/assumptions/4.md). -/
def Obligations.IdleEdgeChangesNothing : Prop :=
  (∀ (s : State) (p : PortIn) (rest : List HarnessMove), s.inputs = .edge p :: rest → p.rst = false →
      p.instrValid = false → s.pend = none → step s = .next { s with inputs := rest }) ∧
    ∀ (k : Nat) (s : State), s.inputs = [] → s.pend = none → run k s = .next s

/-- While an event is pending an edge ticks, whatever instruction is presented: it is neither accepted
nor remembered. Derived: 50_interface.md section 2 (decisions D2, D12). -/
def Obligations.BusyCoreIgnoresInstructionPort : Prop :=
  ∀ (s : State) (e : Event) (p q : PortIn) (rest : List HarnessMove), s.pend = some e →
    p.rst = false → q.rst = false →
    step { s with inputs := .edge p :: rest } = tick e { s with inputs := rest } ∧
      step { s with inputs := .edge p :: rest } = step { s with inputs := .edge q :: rest }

/-- An edge with reset clears registers, memory, counters and the pending event, whatever the core was
doing and whatever is presented, writing nothing back and taking no exception. Derived:
70_reset_and_hazards.md section 1 (decision D3); what reset leaves alone is the model's
(notes/assumptions/13.md). -/
def Obligations.ResetEdgeClearsTheCore : Prop :=
  ∀ (s : State) (p : PortIn) (rest : List HarnessMove), s.inputs = .edge p :: rest → p.rst = true →
    ∃ t, step s = .next t ∧ (∀ r, t.reg r = 0#8) ∧ (∀ a, t.cell a = 0#8) ∧ t.cycles = 0 ∧ t.fetch1 = 0 ∧
      t.fetch2 = 0 ∧ t.writeback = 0 ∧ t.exceptions = 0 ∧ t.pend = none ∧ ready t = true ∧
      t.diagnostics = s.diagnostics ∧ t.params = s.params ∧ t.inputs = rest

/-- The reset state: every register, cell and counter is 0 and no event is pending. Derived:
10_state.md section 8 (decision D3); the default parameter is decision D6 (notes/assumptions/2.md). -/
def Obligations.ResetStateIsAllZero : Prop :=
  (∀ r, State.reset.reg r = 0#8) ∧ (∀ a, State.reset.cell a = 0#8) ∧ State.reset.cycles = 0 ∧
    State.reset.fetch1 = 0 ∧ State.reset.fetch2 = 0 ∧ State.reset.writeback = 0 ∧ State.reset.exceptions = 0 ∧
    State.reset.pend = none ∧ State.reset.params.jumpWbEvent = true

/-- The diagnostic output is valid exactly at the edge that consumes an Exception event, and what it
carries there is what the machine's record of diagnostics gains. Derived: 50_interface.md section 2
(decisions D2, D7); the record is the model's (notes/assumptions/11.md), and so is that the output is
not valid at an edge with reset while an Exception event is pending (notes/assumptions/13.md). -/
def Obligations.DiagnosticOutputAtExceptionTick : Prop :=
  ∀ (s : State) (p : PortIn) (rest : List HarnessMove), s.inputs = .edge p :: rest →
    (diagValid p s = true ↔ p.rst = false ∧ ∃ c, s.pend = some (.exception c)) ∧
      (p.rst = false → s.pend = some (.exception .immDest) → diagCause p s = some 0b01#2) ∧
      (p.rst = false → s.pend = some (.exception .op2Single) → diagCause p s = some 0b10#2) ∧
      ∀ t, step s = .next t → t.diagnostics = s.diagnostics ++ (diagnostic p s).toList

/-- The state is observable exactly when no event is pending, however that came about, and so after every
instruction: what is observed is the registers, the memory and the five counters. Derived: 50_interface.md section 1 (decision D17). -/
def Obligations.ObservableBetweenInstructions : Prop :=
  (∀ (s : State) (e : Event), s.pend = some e → observe s = none) ∧
    (∀ s : State, s.pend = none →
      observe s = some ⟨s.x, s.mem, s.cycles, s.fetch1, s.fetch2, s.writeback, s.exceptions⟩) ∧
    ∀ (i : Instr) (s t : State), exec i s = .next t →
      observe t = some ⟨t.x, t.mem, t.cycles, t.fetch1, t.fetch2, t.writeback, t.exceptions⟩

/-! ## The whole machine -/

/-- `execute` is the issue followed by ticks until no event is pending; from a quiescent state it
completes, and with an event pending there is no step. -/
def Obligations.ExecuteRunsToQuiescence : Prop :=
  (∀ (i : Instr) (s u : State), exec i s = .next u ↔ ∃ t, issue i s = .next t ∧ TicksTo t u) ∧
    (∀ (i : Instr) (s : State), s.pend = none → ∃ u, exec i s = .next u ∧ u.pend = none) ∧
    ∀ (i : Instr) (s : State) (e : Event), s.pend = some e → exec i s = .refused .notQuiescent

/-- A clock edge without reset that changes anything is one issue or one tick, each adds one to
`cycles`, and so an instruction takes one cycle and one more for each event it produces. -/
def Obligations.BusyCyclesAreCountedOnce : Prop :=
  (∀ (p : PortIn) (s t : State), p.rst = false → edge p s = .next t →
      t = s ∨ (∃ i, issue i s = .next t) ∨ ∃ e, s.pend = some e ∧ tick e s = .next t) ∧
  (∀ (i : Instr) (s t : State), issue i s = .next t → t.cycles = s.cycles + 1) ∧
    (∀ (e : Event) (s t : State), tick e s = .next t → t.cycles = s.cycles + 1) ∧
    ∀ (i : Instr) (s t : State), exec i s = .next t → t.cycles = s.cycles + 1 + (walk i s).length

/-- A stage counter rises by one in the tick that consumes an event of its stage, in no other tick and
in no issue, and over an instruction by the number of visits of its stage, at most one. Derived:
41_pipeline.md section 6 (conflict C1). -/
def Obligations.StageCountersCountConsumedEvents : Prop :=
  (∀ (i : Instr) (s t : State), issue i s = .next t → Charged s t 1 0 0 0 0) ∧
    (∀ (e : Event) (s t : State), tick e s = .next t →
      Charged s t 1 (if e.stage = .op1Fetch then 1 else 0) (if e.stage = .op2Fetch then 1 else 0)
        (if e.stage = .writeback then 1 else 0) (if e.stage = .exception then 1 else 0)) ∧
    ∀ (i : Instr) (s t : State), exec i s = .next t →
      Charged s t (1 + (walk i s).length) ((walk i s).count .op1Fetch) ((walk i s).count .op2Fetch)
          ((walk i s).count .writeback) ((walk i s).count .exception) ∧
        (walk i s).Nodup

/-- The stages an instruction goes through after its issue cycle, in order. Derived: 41_pipeline.md
section 6, the tables of events and of walks (decision D6). -/
def Obligations.WalkFollowsShape : Prop :=
  ∀ (i : Instr) (s : State), s.pend = none →
    walk i s =
      (if isIndirect (firstSrc i) then [.op1Fetch] else []) ++
        ((if isIndirect (secondSrc i) then [.op2Fetch] else []) ++
          (if isJump i then (if s.params.jumpWbEvent then [.writeback] else [])
            else if isIndirect (dest i) then [.writeback]
            else if isImmediate (dest i) then [.exception]
            else []))

/-- The cycles of an instruction follow the cycle-accounting formula and are between 1 and 4. Derived:
41_pipeline.md section 6 (conflicts C2, C3) and section 5 on termination. -/
def Obligations.CyclesFollowFormula : Prop :=
  ∀ (i : Instr) (s t : State), exec i s = .next t →
    t.cycles = s.cycles + cyclesOf s.params.jumpWbEvent i ∧
      1 ≤ cyclesOf s.params.jumpWbEvent i ∧ cyclesOf s.params.jumpWbEvent i ≤ 4

/-- Two states that differ only in their counters and past diagnostics step alike: to states that
again differ only there. Derived: 41_pipeline.md section 6, counters are observational. -/
def Obligations.CountersNeverInfluenceResults : Prop :=
  (∀ s t s' : State, SameButCounters s t → step s = .next s' →
      ∃ t', step t = .next t' ∧ SameButCounters s' t') ∧
    (∀ (s t : State) (f : Fault), SameButCounters s t → step s = .fault f → step t = .fault f) ∧
    ∀ (s t : State) (r : Refusal), SameButCounters s t → step s = .refused r → step t = .refused r

/-- Instructions of the same shape charge the same, whatever their registers, addresses and literals
and whatever registers and memory hold. Derived: 41_pipeline.md section 6, the shape-only law. -/
def Obligations.ChargesDependOnlyOnShape : Prop :=
  ∀ (i j : Instr) (s t u v : State), sameShape i j = true → s.params = u.params →
    exec i s = .next t → exec j u = .next v →
    ∃ c f1 f2 wb ex, Charged s t c f1 f2 wb ex ∧ Charged u v c f1 f2 wb ex

/-- An 8-bit datapath is exact: reducing every literal of an instruction changes nothing, and the
event machine with unbounded latches and literals takes the same steps as the 8-bit one on reduced
ones. Derived: 41_pipeline.md section 7 (decision D5, conflict C6). -/
def Obligations.EightBitDatapathIsExact : Prop :=
  (∀ (i : Instr) (s : State), exec i.normalise s = exec i s) ∧
    (∀ (i : Instr) (w : Wide), narrowResult (wideIssue i w) = issue i.normalise (narrow w)) ∧
    ∀ (e : WideEvent) (w : Wide), w.pend = some e →
      narrowResult (wideTick e w.base) = tick (narrowEvent e) (narrow w)

/-- `trunc8` is floor-modulo 256. Derived: 00_scope.md section 6 (decision D5, general knowledge G1). -/
def Obligations.TruncationIsFloorModulo : Prop :=
  (∀ v : Int, ((trunc8 v).toNat : Int) = v % 256) ∧ (trunc8 300).toNat = 44 ∧ (trunc8 (-5)).toNat = 251 ∧
    (trunc8 256).toNat = 0

/-- After a write to a register or a cell, reading it gives the value modulo 256; every other register
and every other cell is unchanged, and so is everything that is no register and no cell, the counters
and the pending event among it. A write to a literal is the logic fault. -/
def Obligations.WriteThenReadRoundTrip : Prop :=
  (∀ (d : Source) (v : Int) (s : State), isImmediate d = false →
    ∃ t, write d v s = .next t ∧ read d t = v % 256 ∧ read d t = (trunc8 v).toNat ∧
      StoresOnly s t d (trunc8 v) ∧ t = { s with x := t.x, mem := t.mem }) ∧
    ∀ (w v : Int) (s : State), write (.immediate w) v s = .fault .logicFault

/-- Every step keeps the invariant: canonical memory inside the 1024 cells, a pending event that an
instruction can produce, no more stage visits than cycles. Derived: 10_state.md section 6 (invariants
of `pend`) and section 5 (field table). -/
def Obligations.EveryStepKeepsInvariant : Prop :=
  ∀ s t : State, Inv s → step s = .next t → Inv t

/-- The invariant holds at reset. Derived: 10_state.md section 8 (decision D3). -/
def Obligations.ResetStateMeetsInvariant : Prop := Inv State.reset

/-- The logic fault is what `write` to a literal is. The writeback decision turns a literal destination
into the exception instead, a Writeback event holds none under the invariant, no instruction reaches
the fault from any state, and no step reaches it from a state that meets the invariant. -/
def Obligations.LogicFaultIsNeverReached : Prop :=
  (∀ (v w : Int) (s : State), write (.immediate v) w s = .fault .logicFault) ∧
    (∀ (i : Instr) (v : Int) (s : State), isImmediate (dest i) = true →
      wbDecide i v s = .next { s with pend := some (.exception .immDest) }) ∧
    (∀ (i : Instr) (v : Byte) (s : State), Inv s → s.pend = some (.writeback i v) →
      isImmediate (dest i) = false) ∧
    (∀ (i : Instr) (s : State) (f : Fault), exec i s ≠ .fault f) ∧
    ∀ (s : State) (f : Fault), Inv s → step s ≠ .fault f

/-- The machine refuses only what the harness must not do: presenting an invalid word, or calling
`execute` with an event pending. Derived: 93_implementation_defined.md U2 and U6 (decision D8). -/
def Obligations.RefusalsAreHarnessBreaches : Prop :=
  ∀ (s : State) (r : Refusal), step s = .refused r →
    (∃ w e, r = .invalidWord e ∧ decode w = .error e ∧
        ((∃ rest, s.inputs = .callWord w :: rest) ∨
          ∃ p rest, s.inputs = .edge p :: rest ∧ p.instr = w ∧ accepts p s = true)) ∨
      (r = .notQuiescent ∧ s.pend ≠ none ∧
        ∃ i rest, s.inputs = .call i :: rest ∨ ∃ w, s.inputs = .callWord w :: rest ∧ decode w = .ok i)

/-- A step takes one move from the harness, keeps every diagnostic emitted before, and never changes
the build's parameters. Derived: 10_state.md section 7 and 00_scope.md section 4; the three fields are
the model's (notes/assumptions/1.md, 2.md, 11.md). -/
def Obligations.StepKeepsParametersAndHistory : Prop :=
  ∀ s t : State, step s = .next t →
    t.params = s.params ∧ t.inputs = s.inputs.tail ∧ ∃ ds, t.diagnostics = s.diagnostics ++ ds

/-- From a state whose pending event an instruction can produce, three idle steps reach quiescence: an
issued instruction always retires, within four cycles. Derived: 41_pipeline.md section 5 on
termination, 70_reset_and_hazards.md section 4; that a harness with no more moves presents idle edges
is the model's (notes/assumptions/4.md). -/
def Obligations.IssuedInstructionRetires : Prop :=
  ∀ s : State, pendOk s = true → s.inputs = [] → ∃ t, run 3 s = .next t ∧ t.pend = none

/-- A run of clock edges without reset, from quiescence to quiescence, ends in the very state that the
calls of the words accepted on the way end in, and `cycles` rose by the number of edges at which the
core issued or ticked. Derived: 50_interface.md section 2, equivalence of the two levels (decision
D2). -/
def Obligations.PortLevelRunsEqualCallLevelRuns : Prop :=
  ∀ (ps : List PortIn) (s t : State), s.pend = none → (∀ p ∈ ps, p.rst = false) →
    run ps.length { s with inputs := ps.map .edge } = .next t → t.pend = none →
    run (acceptedWords ps s).length { s with inputs := (acceptedWords ps s).map .callWord } = .next t ∧
      t.cycles = s.cycles + busyEdges ps s
end

