-- ==== Sys2Proof/Laws/Decode.lean ====
section
/-! SUPPORT. The fields of an assembled word, and the source field's round trip. -/

namespace Sys2Proof

/-! ## The fields of `o sss ttt ddd` -/

theorem assembleWord_toNat (o : BitVec 4) (a b c : Field) :
    (assembleWord o a b c).toNat = o.toNat * 2 ^ 36 + a.toNat * 2 ^ 24 + b.toNat * 2 ^ 12 + c.toNat := by
  have hb := b.isLt
  have hc := c.isLt
  have ha := a.isLt
  simp only [assembleWord, BitVec.toNat_append, Nat.shiftLeft_eq]
  rw [Nat.mul_comm b.toNat, ← Nat.two_pow_add_eq_or_of_lt hc, Nat.mul_comm a.toNat,
    ← Nat.two_pow_add_eq_or_of_lt (by omega), Nat.mul_comm o.toNat, ← Nat.two_pow_add_eq_or_of_lt (by omega)]
  omega

@[simp] theorem opcField_assembleWord (o : BitVec 4) (a b c : Field) : opcField (assembleWord o a b c) = o := by
  apply BitVec.eq_of_toNat_eq
  have ha := a.isLt
  have hb := b.isLt
  have hc := c.isLt
  have ho := o.isLt
  simp only [opcField, BitVec.extractLsb'_toNat, assembleWord_toNat, Nat.shiftRight_eq_div_pow]
  omega

@[simp] theorem s1Field_assembleWord (o : BitVec 4) (a b c : Field) : s1Field (assembleWord o a b c) = a := by
  apply BitVec.eq_of_toNat_eq
  have ha := a.isLt
  have hb := b.isLt
  have hc := c.isLt
  simp only [s1Field, BitVec.extractLsb'_toNat, assembleWord_toNat, Nat.shiftRight_eq_div_pow]
  omega

@[simp] theorem s2Field_assembleWord (o : BitVec 4) (a b c : Field) : s2Field (assembleWord o a b c) = b := by
  apply BitVec.eq_of_toNat_eq
  have hb := b.isLt
  have hc := c.isLt
  simp only [s2Field, BitVec.extractLsb'_toNat, assembleWord_toNat, Nat.shiftRight_eq_div_pow]
  omega

@[simp] theorem sdField_assembleWord (o : BitVec 4) (a b c : Field) : sdField (assembleWord o a b c) = c := by
  apply BitVec.eq_of_toNat_eq
  have hc := c.isLt
  simp only [sdField, BitVec.extractLsb'_toNat, assembleWord_toNat, Nat.shiftRight_eq_div_pow]
  omega

/-- A word is its four fields. -/
theorem assembleWord_fields (w : Word) : assembleWord (opcField w) (s1Field w) (s2Field w) (sdField w) = w := by
  apply BitVec.eq_of_toNat_eq
  have hw := w.isLt
  simp only [assembleWord_toNat, opcField, s1Field, s2Field, sdField, BitVec.extractLsb'_toNat,
    Nat.shiftRight_eq_div_pow]
  omega

/-! ## The source field -/

theorem encSrc_direct_toNat (r : Fin 16) : (encSrc (.direct r)).toNat = r.val := by
  revert r; decide

theorem encSrc_indirect_toNat (a : Fin 1024) : (encSrc (.indirect a)).toNat = 0x400 + a.val := by
  simp only [encSrc, BitVec.toNat_append, Nat.shiftLeft_eq]
  have h := Nat.two_pow_add_eq_or_of_lt (i := 10) (b := a.val) a.isLt 1
  simpa using h.symm

theorem encSrc_immediate_toNat (v : Int) : (encSrc (.immediate v)).toNat = 0x800 + (trunc8 v).toNat := by
  have hv := (trunc8 v).isLt
  simp only [encSrc, BitVec.toNat_append, Nat.shiftLeft_eq]
  have h := Nat.two_pow_add_eq_or_of_lt (i := 10) (b := (trunc8 v).toNat) (by omega) 2
  simpa using h.symm

/-- Decoding an encoded source gives its normal form (30_encoding.md R56). -/
@[simp] theorem decSrc_encSrc (a : Source) : decSrc (encSrc a) = .ok a.normalise := by
  cases a with
  | direct r => revert r; decide
  | indirect a =>
    have ha := a.isLt
    have hm : (encSrc (.indirect a)).extractLsb' 10 2 = 0b01#2 := by
      apply BitVec.eq_of_toNat_eq
      simp only [BitVec.extractLsb'_toNat, encSrc_indirect_toNat, Nat.shiftRight_eq_div_pow, BitVec.toNat_ofNat]
      omega
    have hp : (encSrc (.indirect a)).extractLsb' 0 10 = BitVec.ofFin (w := 10) a := by
      apply BitVec.eq_of_toNat_eq
      simp only [BitVec.extractLsb'_toNat, encSrc_indirect_toNat, Nat.shiftRight_eq_div_pow, BitVec.toNat_ofFin]
      omega
    simp [decSrc, hm, hp, Source.normalise]
  | immediate v =>
    have hv := (trunc8 v).isLt
    have hm : (encSrc (.immediate v)).extractLsb' 10 2 = 0b10#2 := by
      apply BitVec.eq_of_toNat_eq
      simp only [BitVec.extractLsb'_toNat, encSrc_immediate_toNat, Nat.shiftRight_eq_div_pow, BitVec.toNat_ofNat]
      omega
    have hz : (encSrc (.immediate v)).extractLsb' 8 2 = 0#2 := by
      apply BitVec.eq_of_toNat_eq
      simp only [BitVec.extractLsb'_toNat, encSrc_immediate_toNat, Nat.shiftRight_eq_div_pow, BitVec.toNat_ofNat]
      omega
    have hp : (encSrc (.immediate v)).extractLsb' 0 8 = trunc8 v := by
      apply BitVec.eq_of_toNat_eq
      simp only [BitVec.extractLsb'_toNat, encSrc_immediate_toNat, Nat.shiftRight_eq_div_pow]
      omega
    simp [decSrc, hm, hz, hp, Source.normalise]

/-- A source that is well-formed is its own normal form (R52). -/
theorem Source.normalise_of_wellFormed {a : Source} (h : a.wellFormed = true) : a.normalise = a := by
  cases a with
  | direct r => rfl
  | indirect a => rfl
  | immediate v =>
    simp only [Source.wellFormed, Bool.and_eq_true, decide_eq_true_eq] at h
    simp only [Source.normalise, trunc8, BitVec.toNat_ofInt, Source.immediate.injEq]
    omega

end Sys2Proof
end

