-- ==== Sys2Proof/Laws/Memory.lean ====
section
/-! SUPPORT. The laws of the memory operations: read after write, and the canonical form. -/

namespace Sys2Proof.Machine

/-! ## Reading after erasing, inserting, writing -/

theorem Memory.read_erase (m : Memory) (a b : Nat) :
    Memory.read (Memory.erase m a) b = if b = a then unlistedByte else Memory.read m b := by
  induction m with
  | nil => simp [Memory.erase, Memory.read]
  | cons c m ih =>
    obtain ⟨k, w⟩ := c
    by_cases hk : a = k
    · subst hk
      by_cases hb : b = a
      · simpa [Memory.erase, hb] using ih
      · simp [Memory.erase, Memory.read, ih, hb]
    · by_cases hb : b = k
      · subst hb
        simp [Memory.erase, Memory.read, hk, Ne.symm hk]
      · simp [Memory.erase, Memory.read, hk, hb, ih]

theorem Memory.read_insert_same (m : Memory) (a : Nat) (v : Byte) :
    Memory.read (Memory.insert (Memory.erase m a) a v) a = v := by
  induction m with
  | nil => simp [Memory.erase, Memory.insert, Memory.read]
  | cons c m ih =>
    obtain ⟨k, w⟩ := c
    by_cases hk : a = k
    · simpa [Memory.erase, hk] using (hk ▸ ih)
    · by_cases hlt : a < k <;> simp [Memory.erase, Memory.insert, Memory.read, hk, hlt, ih]

theorem Memory.read_insert_other (m : Memory) (a b : Nat) (v : Byte) (h : b ≠ a) :
    Memory.read (Memory.insert m a v) b = Memory.read m b := by
  induction m with
  | nil => simp [Memory.insert, Memory.read, h]
  | cons c m ih =>
    obtain ⟨k, w⟩ := c
    by_cases hlt : a < k
    · simp [Memory.insert, Memory.read, hlt, h]
    · by_cases hb : b = k <;> simp [Memory.insert, Memory.read, hlt, hb, ih]

/-- The whole of a write, seen through reads: it needs no canonical form. -/
theorem Memory.read_write (m : Memory) (a b : Nat) (v : Byte) :
    Memory.read (Memory.write m a v) b = if b = a then v else Memory.read m b := by
  unfold Memory.write
  by_cases hv : v = unlistedByte
  · by_cases hb : b = a <;> simp [hv, hb, Memory.read_erase]
  · by_cases hb : b = a
    · simp [hv, hb, Memory.read_insert_same]
    · simp [hv, hb, Memory.read_insert_other, Memory.read_erase]

/-! ## The canonical form is kept -/

theorem Memory.wfFrom_mono {lo lo' : Nat} (h : lo' ≤ lo) {m : Memory} (hm : Memory.wfFrom lo m = true) :
    Memory.wfFrom lo' m = true := by
  cases m with
  | nil => rfl
  | cons c m =>
    simp only [Memory.wfFrom, Bool.and_eq_true, decide_eq_true_eq] at hm ⊢
    exact ⟨⟨⟨by omega, hm.1.1.2⟩, hm.1.2⟩, hm.2⟩

theorem Memory.wfFrom_erase (m : Memory) (a : Nat) {lo : Nat} (hm : Memory.wfFrom lo m = true) :
    Memory.wfFrom lo (Memory.erase m a) = true := by
  induction m generalizing lo with
  | nil => rfl
  | cons c m ih =>
    obtain ⟨k, w⟩ := c
    simp only [Memory.wfFrom, Bool.and_eq_true, decide_eq_true_eq] at hm
    by_cases hk : a = k
    · simpa [Memory.erase, hk] using Memory.wfFrom_mono (by omega) (hk ▸ ih hm.2)
    · simp only [Memory.erase, hk, if_false, Memory.wfFrom, Bool.and_eq_true, decide_eq_true_eq]
      exact ⟨hm.1, ih hm.2⟩

/-- No entry of a list in canonical form stands below its bound. -/
theorem Memory.read_below {lo : Nat} {m : Memory} (hm : Memory.wfFrom lo m = true) {a : Nat} (ha : a < lo) :
    Memory.read m a = unlistedByte := by
  induction m generalizing lo with
  | nil => rfl
  | cons c m ih =>
    obtain ⟨k, w⟩ := c
    simp only [Memory.wfFrom, Bool.and_eq_true, decide_eq_true_eq] at hm
    have hne : a ≠ k := by omega
    simpa [Memory.read, hne] using ih hm.2 (by omega)

theorem Memory.wfFrom_insert (m : Memory) (a : Nat) (v : Byte) {lo : Nat} (hlo : lo ≤ a) (ha : a < 1024)
    (hv : v ≠ unlistedByte) (hm : Memory.wfFrom lo (Memory.erase m a) = true) :
    Memory.wfFrom lo (Memory.insert (Memory.erase m a) a v) = true := by
  induction m generalizing lo with
  | nil => simp [Memory.erase, Memory.insert, Memory.wfFrom, hlo, ha, hv]
  | cons c m ih =>
    obtain ⟨k, w⟩ := c
    by_cases hk : a = k
    · have h := ih hlo (by simpa [Memory.erase, hk] using hm)
      simpa [Memory.erase, hk] using h
    · simp only [Memory.erase, hk, if_false, Memory.wfFrom, Bool.and_eq_true, decide_eq_true_eq] at hm
      by_cases hlt : a < k
      · simp only [Memory.erase, hk, if_false, Memory.insert, hlt, if_true, Memory.wfFrom, Bool.and_eq_true,
          decide_eq_true_eq]
        exact ⟨⟨⟨hlo, ha⟩, hv⟩, ⟨⟨by omega, hm.1.1.2⟩, hm.1.2⟩, hm.2⟩
      · simp only [Memory.erase, hk, if_false, Memory.insert, hlt, Memory.wfFrom, Bool.and_eq_true,
          decide_eq_true_eq]
        exact ⟨hm.1, ih (by omega) hm.2⟩

/-- A write to an address of the memory keeps the canonical form. -/
theorem Memory.wf_write {m : Memory} (hm : Memory.wf m = true) (a : Fin 1024) (v : Byte) :
    Memory.wf (Memory.write m a.val v) = true := by
  have he := Memory.wfFrom_erase m a.val hm
  unfold Memory.write
  by_cases hv : v = unlistedByte
  · simpa [hv, Memory.wf] using he
  · simpa [hv, Memory.wf] using Memory.wfFrom_insert m a.val v (Nat.zero_le _) a.isLt hv he

/-- The memory of the reset state is in canonical form. -/
theorem Memory.wf_reset : Memory.wf State.reset.mem = true := rfl

/-! ## Equal contents are equal lists -/

theorem Memory.eq_of_read_eq_from {lo : Nat} {m m' : Memory} (hm : Memory.wfFrom lo m = true)
    (hm' : Memory.wfFrom lo m' = true) (h : ∀ a, Memory.read m a = Memory.read m' a) : m = m' := by
  induction m generalizing lo m' with
  | nil =>
    cases m' with
    | nil => rfl
    | cons c m' =>
      simp only [Memory.wfFrom, Bool.and_eq_true, decide_eq_true_eq] at hm'
      exact absurd (by simpa [Memory.read] using (h c.1).symm) hm'.1.2
  | cons c m ih =>
    obtain ⟨k, w⟩ := c
    simp only [Memory.wfFrom, Bool.and_eq_true, decide_eq_true_eq] at hm
    cases m' with
    | nil => exact absurd (by simpa [Memory.read] using h k) hm.1.2
    | cons c' m' =>
      obtain ⟨k', w'⟩ := c'
      simp only [Memory.wfFrom, Bool.and_eq_true, decide_eq_true_eq] at hm'
      rcases Nat.lt_trichotomy k k' with hlt | heq | hgt
      · have hk := h k
        rw [Memory.read_below (m := (k', w') :: m') (lo := k')
          (by simp only [Memory.wfFrom, Bool.and_eq_true, decide_eq_true_eq]
              exact ⟨⟨⟨Nat.le_refl _, hm'.1.1.2⟩, hm'.1.2⟩, hm'.2⟩) hlt] at hk
        exact absurd (by simpa [Memory.read] using hk) hm.1.2
      · subst heq
        have hw : w = w' := by simpa [Memory.read] using h k
        have ht : m = m' := by
          refine ih hm.2 hm'.2 fun a => ?_
          by_cases ha : a = k
          · rw [Memory.read_below hm.2 (by omega), Memory.read_below hm'.2 (by omega)]
          · simpa [Memory.read, ha] using h a
        rw [hw, ht]
      · have hk := h k'
        rw [Memory.read_below (m := (k, w) :: m) (lo := k)
          (by simp only [Memory.wfFrom, Bool.and_eq_true, decide_eq_true_eq]
              exact ⟨⟨⟨Nat.le_refl _, hm.1.1.2⟩, hm.1.2⟩, hm.2⟩) hgt] at hk
        exact absurd (by simpa [Memory.read] using hk.symm) hm'.1.2

/-- Two memories in canonical form that read alike everywhere are the same list. -/
theorem Memory.eq_of_read_eq {m m' : Memory} (hm : Memory.wf m = true) (hm' : Memory.wf m' = true)
    (h : ∀ a, Memory.read m a = Memory.read m' a) : m = m' :=
  Memory.eq_of_read_eq_from hm hm' h

end Sys2Proof.Machine
end

