-- ==== Sys2Proof/Laws/State.lean ====
section
/-! SUPPORT. One lemma per field of State per update of Machine/Ops.lean, each true by definition. -/

namespace Sys2Proof.Machine

/-! ## setReg -/

@[simp] theorem State.setReg_x (s : State) (r : Fin 16) (v : Byte) : (s.setReg r v).x = s.x.set r.val v := rfl
@[simp] theorem State.setReg_mem (s : State) (r : Fin 16) (v : Byte) : (s.setReg r v).mem = s.mem := rfl
@[simp] theorem State.setReg_cycles (s : State) (r : Fin 16) (v : Byte) : (s.setReg r v).cycles = s.cycles := rfl
@[simp] theorem State.setReg_fetch1 (s : State) (r : Fin 16) (v : Byte) : (s.setReg r v).fetch1 = s.fetch1 := rfl
@[simp] theorem State.setReg_fetch2 (s : State) (r : Fin 16) (v : Byte) : (s.setReg r v).fetch2 = s.fetch2 := rfl
@[simp] theorem State.setReg_writeback (s : State) (r : Fin 16) (v : Byte) : (s.setReg r v).writeback = s.writeback := rfl
@[simp] theorem State.setReg_exceptions (s : State) (r : Fin 16) (v : Byte) : (s.setReg r v).exceptions = s.exceptions := rfl
@[simp] theorem State.setReg_pend (s : State) (r : Fin 16) (v : Byte) : (s.setReg r v).pend = s.pend := rfl
@[simp] theorem State.setReg_params (s : State) (r : Fin 16) (v : Byte) : (s.setReg r v).params = s.params := rfl
@[simp] theorem State.setReg_inputs (s : State) (r : Fin 16) (v : Byte) : (s.setReg r v).inputs = s.inputs := rfl
@[simp] theorem State.setReg_diagnostics (s : State) (r : Fin 16) (v : Byte) : (s.setReg r v).diagnostics = s.diagnostics := rfl

/-! ## setCell -/

@[simp] theorem State.setCell_x (s : State) (a : Fin 1024) (v : Byte) : (s.setCell a v).x = s.x := rfl
@[simp] theorem State.setCell_mem (s : State) (a : Fin 1024) (v : Byte) : (s.setCell a v).mem = Memory.write s.mem a.val v := rfl
@[simp] theorem State.setCell_cycles (s : State) (a : Fin 1024) (v : Byte) : (s.setCell a v).cycles = s.cycles := rfl
@[simp] theorem State.setCell_fetch1 (s : State) (a : Fin 1024) (v : Byte) : (s.setCell a v).fetch1 = s.fetch1 := rfl
@[simp] theorem State.setCell_fetch2 (s : State) (a : Fin 1024) (v : Byte) : (s.setCell a v).fetch2 = s.fetch2 := rfl
@[simp] theorem State.setCell_writeback (s : State) (a : Fin 1024) (v : Byte) : (s.setCell a v).writeback = s.writeback := rfl
@[simp] theorem State.setCell_exceptions (s : State) (a : Fin 1024) (v : Byte) : (s.setCell a v).exceptions = s.exceptions := rfl
@[simp] theorem State.setCell_pend (s : State) (a : Fin 1024) (v : Byte) : (s.setCell a v).pend = s.pend := rfl
@[simp] theorem State.setCell_params (s : State) (a : Fin 1024) (v : Byte) : (s.setCell a v).params = s.params := rfl
@[simp] theorem State.setCell_inputs (s : State) (a : Fin 1024) (v : Byte) : (s.setCell a v).inputs = s.inputs := rfl
@[simp] theorem State.setCell_diagnostics (s : State) (a : Fin 1024) (v : Byte) : (s.setCell a v).diagnostics = s.diagnostics := rfl

/-! ## defer -/

@[simp] theorem State.defer_x (s : State) (e : Event) : (s.defer e).x = s.x := rfl
@[simp] theorem State.defer_mem (s : State) (e : Event) : (s.defer e).mem = s.mem := rfl
@[simp] theorem State.defer_cycles (s : State) (e : Event) : (s.defer e).cycles = s.cycles := rfl
@[simp] theorem State.defer_fetch1 (s : State) (e : Event) : (s.defer e).fetch1 = s.fetch1 := rfl
@[simp] theorem State.defer_fetch2 (s : State) (e : Event) : (s.defer e).fetch2 = s.fetch2 := rfl
@[simp] theorem State.defer_writeback (s : State) (e : Event) : (s.defer e).writeback = s.writeback := rfl
@[simp] theorem State.defer_exceptions (s : State) (e : Event) : (s.defer e).exceptions = s.exceptions := rfl
@[simp] theorem State.defer_pend (s : State) (e : Event) : (s.defer e).pend = some e := rfl
@[simp] theorem State.defer_params (s : State) (e : Event) : (s.defer e).params = s.params := rfl
@[simp] theorem State.defer_inputs (s : State) (e : Event) : (s.defer e).inputs = s.inputs := rfl
@[simp] theorem State.defer_diagnostics (s : State) (e : Event) : (s.defer e).diagnostics = s.diagnostics := rfl

/-! ## chargeCycle -/

@[simp] theorem State.chargeCycle_x (s : State) : (s.chargeCycle).x = s.x := rfl
@[simp] theorem State.chargeCycle_mem (s : State) : (s.chargeCycle).mem = s.mem := rfl
@[simp] theorem State.chargeCycle_cycles (s : State) : (s.chargeCycle).cycles = s.cycles + 1 := rfl
@[simp] theorem State.chargeCycle_fetch1 (s : State) : (s.chargeCycle).fetch1 = s.fetch1 := rfl
@[simp] theorem State.chargeCycle_fetch2 (s : State) : (s.chargeCycle).fetch2 = s.fetch2 := rfl
@[simp] theorem State.chargeCycle_writeback (s : State) : (s.chargeCycle).writeback = s.writeback := rfl
@[simp] theorem State.chargeCycle_exceptions (s : State) : (s.chargeCycle).exceptions = s.exceptions := rfl
@[simp] theorem State.chargeCycle_pend (s : State) : (s.chargeCycle).pend = s.pend := rfl
@[simp] theorem State.chargeCycle_params (s : State) : (s.chargeCycle).params = s.params := rfl
@[simp] theorem State.chargeCycle_inputs (s : State) : (s.chargeCycle).inputs = s.inputs := rfl
@[simp] theorem State.chargeCycle_diagnostics (s : State) : (s.chargeCycle).diagnostics = s.diagnostics := rfl

/-! ## consume -/

@[simp] theorem State.consume_x (s : State) : (s.consume).x = s.x := rfl
@[simp] theorem State.consume_mem (s : State) : (s.consume).mem = s.mem := rfl
@[simp] theorem State.consume_cycles (s : State) : (s.consume).cycles = s.cycles + 1 := rfl
@[simp] theorem State.consume_fetch1 (s : State) : (s.consume).fetch1 = s.fetch1 := rfl
@[simp] theorem State.consume_fetch2 (s : State) : (s.consume).fetch2 = s.fetch2 := rfl
@[simp] theorem State.consume_writeback (s : State) : (s.consume).writeback = s.writeback := rfl
@[simp] theorem State.consume_exceptions (s : State) : (s.consume).exceptions = s.exceptions := rfl
@[simp] theorem State.consume_pend (s : State) : (s.consume).pend = none := rfl
@[simp] theorem State.consume_params (s : State) : (s.consume).params = s.params := rfl
@[simp] theorem State.consume_inputs (s : State) : (s.consume).inputs = s.inputs := rfl
@[simp] theorem State.consume_diagnostics (s : State) : (s.consume).diagnostics = s.diagnostics := rfl

/-! ## countFetch1 -/

@[simp] theorem State.countFetch1_x (s : State) : (s.countFetch1).x = s.x := rfl
@[simp] theorem State.countFetch1_mem (s : State) : (s.countFetch1).mem = s.mem := rfl
@[simp] theorem State.countFetch1_cycles (s : State) : (s.countFetch1).cycles = s.cycles := rfl
@[simp] theorem State.countFetch1_fetch1 (s : State) : (s.countFetch1).fetch1 = s.fetch1 + 1 := rfl
@[simp] theorem State.countFetch1_fetch2 (s : State) : (s.countFetch1).fetch2 = s.fetch2 := rfl
@[simp] theorem State.countFetch1_writeback (s : State) : (s.countFetch1).writeback = s.writeback := rfl
@[simp] theorem State.countFetch1_exceptions (s : State) : (s.countFetch1).exceptions = s.exceptions := rfl
@[simp] theorem State.countFetch1_pend (s : State) : (s.countFetch1).pend = s.pend := rfl
@[simp] theorem State.countFetch1_params (s : State) : (s.countFetch1).params = s.params := rfl
@[simp] theorem State.countFetch1_inputs (s : State) : (s.countFetch1).inputs = s.inputs := rfl
@[simp] theorem State.countFetch1_diagnostics (s : State) : (s.countFetch1).diagnostics = s.diagnostics := rfl

/-! ## countFetch2 -/

@[simp] theorem State.countFetch2_x (s : State) : (s.countFetch2).x = s.x := rfl
@[simp] theorem State.countFetch2_mem (s : State) : (s.countFetch2).mem = s.mem := rfl
@[simp] theorem State.countFetch2_cycles (s : State) : (s.countFetch2).cycles = s.cycles := rfl
@[simp] theorem State.countFetch2_fetch1 (s : State) : (s.countFetch2).fetch1 = s.fetch1 := rfl
@[simp] theorem State.countFetch2_fetch2 (s : State) : (s.countFetch2).fetch2 = s.fetch2 + 1 := rfl
@[simp] theorem State.countFetch2_writeback (s : State) : (s.countFetch2).writeback = s.writeback := rfl
@[simp] theorem State.countFetch2_exceptions (s : State) : (s.countFetch2).exceptions = s.exceptions := rfl
@[simp] theorem State.countFetch2_pend (s : State) : (s.countFetch2).pend = s.pend := rfl
@[simp] theorem State.countFetch2_params (s : State) : (s.countFetch2).params = s.params := rfl
@[simp] theorem State.countFetch2_inputs (s : State) : (s.countFetch2).inputs = s.inputs := rfl
@[simp] theorem State.countFetch2_diagnostics (s : State) : (s.countFetch2).diagnostics = s.diagnostics := rfl

/-! ## countWriteback -/

@[simp] theorem State.countWriteback_x (s : State) : (s.countWriteback).x = s.x := rfl
@[simp] theorem State.countWriteback_mem (s : State) : (s.countWriteback).mem = s.mem := rfl
@[simp] theorem State.countWriteback_cycles (s : State) : (s.countWriteback).cycles = s.cycles := rfl
@[simp] theorem State.countWriteback_fetch1 (s : State) : (s.countWriteback).fetch1 = s.fetch1 := rfl
@[simp] theorem State.countWriteback_fetch2 (s : State) : (s.countWriteback).fetch2 = s.fetch2 := rfl
@[simp] theorem State.countWriteback_writeback (s : State) : (s.countWriteback).writeback = s.writeback + 1 := rfl
@[simp] theorem State.countWriteback_exceptions (s : State) : (s.countWriteback).exceptions = s.exceptions := rfl
@[simp] theorem State.countWriteback_pend (s : State) : (s.countWriteback).pend = s.pend := rfl
@[simp] theorem State.countWriteback_params (s : State) : (s.countWriteback).params = s.params := rfl
@[simp] theorem State.countWriteback_inputs (s : State) : (s.countWriteback).inputs = s.inputs := rfl
@[simp] theorem State.countWriteback_diagnostics (s : State) : (s.countWriteback).diagnostics = s.diagnostics := rfl

/-! ## raiseException -/

@[simp] theorem raiseException_x (s : State) (c : Cause) : (raiseException c s).x = s.x := rfl
@[simp] theorem raiseException_mem (s : State) (c : Cause) : (raiseException c s).mem = s.mem := rfl
@[simp] theorem raiseException_cycles (s : State) (c : Cause) : (raiseException c s).cycles = s.cycles := rfl
@[simp] theorem raiseException_fetch1 (s : State) (c : Cause) : (raiseException c s).fetch1 = s.fetch1 := rfl
@[simp] theorem raiseException_fetch2 (s : State) (c : Cause) : (raiseException c s).fetch2 = s.fetch2 := rfl
@[simp] theorem raiseException_writeback (s : State) (c : Cause) : (raiseException c s).writeback = s.writeback := rfl
@[simp] theorem raiseException_exceptions (s : State) (c : Cause) : (raiseException c s).exceptions = s.exceptions := rfl
@[simp] theorem raiseException_pend (s : State) (c : Cause) : (raiseException c s).pend = some (.exception c) := rfl
@[simp] theorem raiseException_params (s : State) (c : Cause) : (raiseException c s).params = s.params := rfl
@[simp] theorem raiseException_inputs (s : State) (c : Cause) : (raiseException c s).inputs = s.inputs := rfl
@[simp] theorem raiseException_diagnostics (s : State) (c : Cause) : (raiseException c s).diagnostics = s.diagnostics := rfl

/-! ## takeException -/

@[simp] theorem takeException_x (s : State) (c : Cause) : (takeException c s).x = s.x := rfl
@[simp] theorem takeException_mem (s : State) (c : Cause) : (takeException c s).mem = s.mem := rfl
@[simp] theorem takeException_cycles (s : State) (c : Cause) : (takeException c s).cycles = s.cycles := rfl
@[simp] theorem takeException_fetch1 (s : State) (c : Cause) : (takeException c s).fetch1 = s.fetch1 := rfl
@[simp] theorem takeException_fetch2 (s : State) (c : Cause) : (takeException c s).fetch2 = s.fetch2 := rfl
@[simp] theorem takeException_writeback (s : State) (c : Cause) : (takeException c s).writeback = s.writeback := rfl
@[simp] theorem takeException_exceptions (s : State) (c : Cause) : (takeException c s).exceptions = s.exceptions + 1 := rfl
@[simp] theorem takeException_pend (s : State) (c : Cause) : (takeException c s).pend = s.pend := rfl
@[simp] theorem takeException_params (s : State) (c : Cause) : (takeException c s).params = s.params := rfl
@[simp] theorem takeException_inputs (s : State) (c : Cause) : (takeException c s).inputs = s.inputs := rfl
@[simp] theorem takeException_diagnostics (s : State) (c : Cause) : (takeException c s).diagnostics = s.diagnostics ++ [c] := rfl

/-! ## hardwareReset -/

@[simp] theorem State.hardwareReset_x (s : State) : (s.hardwareReset).x = Vector.replicate 16 resetByte := rfl
@[simp] theorem State.hardwareReset_mem (s : State) : (s.hardwareReset).mem = [] := rfl
@[simp] theorem State.hardwareReset_cycles (s : State) : (s.hardwareReset).cycles = 0 := rfl
@[simp] theorem State.hardwareReset_fetch1 (s : State) : (s.hardwareReset).fetch1 = 0 := rfl
@[simp] theorem State.hardwareReset_fetch2 (s : State) : (s.hardwareReset).fetch2 = 0 := rfl
@[simp] theorem State.hardwareReset_writeback (s : State) : (s.hardwareReset).writeback = 0 := rfl
@[simp] theorem State.hardwareReset_exceptions (s : State) : (s.hardwareReset).exceptions = 0 := rfl
@[simp] theorem State.hardwareReset_pend (s : State) : (s.hardwareReset).pend = none := rfl
@[simp] theorem State.hardwareReset_params (s : State) : (s.hardwareReset).params = s.params := rfl
@[simp] theorem State.hardwareReset_inputs (s : State) : (s.hardwareReset).inputs = s.inputs := rfl
@[simp] theorem State.hardwareReset_diagnostics (s : State) : (s.hardwareReset).diagnostics = s.diagnostics := rfl

end Sys2Proof.Machine
end

