-- ==== Sys2Proof/Laws/Operands.lean ====
section
/-! SUPPORT. Registers and cells after each update; what `read` and `write` do. -/

namespace Sys2Proof.Machine

/-! ## Registers -/

@[simp] theorem State.setReg_reg (s : State) (q r : Fin 16) (v : Byte) :
    (s.setReg q v).reg r = if r = q then v else s.reg r := by
  by_cases h : r = q
  · simp [State.reg, h]
  · have : q.val ≠ r.val := fun e => h (Fin.ext e.symm)
    simp [State.reg, h, this]

@[simp] theorem State.setCell_reg (s : State) (a : Fin 1024) (v : Byte) (r : Fin 16) :
    (s.setCell a v).reg r = s.reg r := rfl

@[simp] theorem State.defer_reg (s : State) (e : Event) (r : Fin 16) : (s.defer e).reg r = s.reg r := rfl

@[simp] theorem State.chargeCycle_reg (s : State) (r : Fin 16) : s.chargeCycle.reg r = s.reg r := rfl

@[simp] theorem State.consume_reg (s : State) (r : Fin 16) : s.consume.reg r = s.reg r := rfl

@[simp] theorem State.countFetch1_reg (s : State) (r : Fin 16) : s.countFetch1.reg r = s.reg r := rfl

@[simp] theorem State.countFetch2_reg (s : State) (r : Fin 16) : s.countFetch2.reg r = s.reg r := rfl

@[simp] theorem State.countWriteback_reg (s : State) (r : Fin 16) : s.countWriteback.reg r = s.reg r := rfl

@[simp] theorem raiseException_reg (s : State) (c : Cause) (r : Fin 16) : (raiseException c s).reg r = s.reg r := rfl

@[simp] theorem takeException_reg (s : State) (c : Cause) (r : Fin 16) : (takeException c s).reg r = s.reg r := rfl

/-! ## Cells -/

@[simp] theorem State.setCell_cell (s : State) (a : Fin 1024) (v : Byte) (b : Nat) :
    (s.setCell a v).cell b = if b = a.val then v else s.cell b := Memory.read_write s.mem a.val b v

@[simp] theorem State.setReg_cell (s : State) (r : Fin 16) (v : Byte) (b : Nat) :
    (s.setReg r v).cell b = s.cell b := rfl

@[simp] theorem State.defer_cell (s : State) (e : Event) (b : Nat) : (s.defer e).cell b = s.cell b := rfl

@[simp] theorem State.chargeCycle_cell (s : State) (b : Nat) : s.chargeCycle.cell b = s.cell b := rfl

@[simp] theorem State.consume_cell (s : State) (b : Nat) : s.consume.cell b = s.cell b := rfl

@[simp] theorem State.countFetch1_cell (s : State) (b : Nat) : s.countFetch1.cell b = s.cell b := rfl

@[simp] theorem State.countFetch2_cell (s : State) (b : Nat) : s.countFetch2.cell b = s.cell b := rfl

@[simp] theorem State.countWriteback_cell (s : State) (b : Nat) : s.countWriteback.cell b = s.cell b := rfl

@[simp] theorem raiseException_cell (s : State) (c : Cause) (b : Nat) : (raiseException c s).cell b = s.cell b := rfl

@[simp] theorem takeException_cell (s : State) (c : Cause) (b : Nat) : (takeException c s).cell b = s.cell b := rfl

/-! ## Latency classes -/

@[simp] theorem isIndirect_direct (r : Fin 16) : isIndirect (.direct r) = false := rfl

@[simp] theorem isIndirect_indirect (a : Fin 1024) : isIndirect (.indirect a) = true := rfl

@[simp] theorem isIndirect_immediate (v : Int) : isIndirect (.immediate v) = false := rfl

@[simp] theorem isImmediate_direct (r : Fin 16) : isImmediate (.direct r) = false := rfl

@[simp] theorem isImmediate_indirect (a : Fin 1024) : isImmediate (.indirect a) = false := rfl

@[simp] theorem isImmediate_immediate (v : Int) : isImmediate (.immediate v) = true := rfl

/-! ## `read` -/

@[simp] theorem read_direct (s : State) (r : Fin 16) : read (.direct r) s = (s.reg r).toNat := rfl

@[simp] theorem read_indirect (s : State) (a : Fin 1024) : read (.indirect a) s = (s.cell a.val).toNat := rfl

@[simp] theorem read_immediate (s : State) (v : Int) : read (.immediate v) s = v := rfl

/-- `read` looks at the registers and the memory and at nothing else. -/
theorem read_congr {s t : State} (hx : s.x = t.x) (hm : s.mem = t.mem) (src : Source) : read src s = read src t := by
  cases src <;> simp [read, State.reg, State.cell, hx, hm]

@[simp] theorem read_defer (s : State) (e : Event) (src : Source) : read src (s.defer e) = read src s :=
  read_congr rfl rfl src

@[simp] theorem read_chargeCycle (s : State) (src : Source) : read src s.chargeCycle = read src s :=
  read_congr rfl rfl src

@[simp] theorem read_consume (s : State) (src : Source) : read src s.consume = read src s := read_congr rfl rfl src

@[simp] theorem read_countFetch1 (s : State) (src : Source) : read src s.countFetch1 = read src s :=
  read_congr rfl rfl src

@[simp] theorem read_countFetch2 (s : State) (src : Source) : read src s.countFetch2 = read src s :=
  read_congr rfl rfl src

/-! ## `write` -/

/-- `write` answers a next state in two ways only. -/
theorem write_next {d : Source} {v : Int} {s t : State} (h : write d v s = .next t) :
    (∃ r, d = .direct r ∧ t = s.setReg r (trunc8 v)) ∨ ∃ a, d = .indirect a ∧ t = s.setCell a (trunc8 v) := by
  cases d with
  | direct r => exact .inl ⟨r, rfl, by simpa [write] using h.symm⟩
  | indirect a => exact .inr ⟨a, rfl, by simpa [write] using h.symm⟩
  | immediate w => simp [write] at h

/-- `write` stops only at a literal, with the logic fault. -/
theorem write_fault {d : Source} {v : Int} {s : State} {f : Fault} (h : write d v s = .fault f) :
    ∃ w, d = .immediate w := by
  cases d with
  | direct r => simp [write] at h
  | indirect a => simp [write] at h
  | immediate w => exact ⟨w, rfl⟩

/-- `write` never refuses. -/
theorem write_not_refused (d : Source) (v : Int) (s : State) (r : Refusal) : write d v s ≠ .refused r := by
  cases d <;> simp [write]

/-! ## `trunc8` -/

/-- The stored byte as a number: floor-modulo 256 (00_scope.md R7). -/
theorem trunc8_toNat (v : Int) : ((trunc8 v).toNat : Int) = v % 256 := by
  have h : (0 : Int) ≤ v % 256 := Int.emod_nonneg v (by decide)
  simp [trunc8, BitVec.toNat_ofInt, Int.toNat_of_nonneg h]

/-- A byte read back and stored again is the same byte. -/
@[simp] theorem trunc8_natCast (b : Byte) : trunc8 (b.toNat : Int) = b := by
  simp [trunc8]

/-- Only the residue modulo 256 matters. -/
theorem trunc8_congr {v w : Int} (h : v % 256 = w % 256) : trunc8 v = trunc8 w := by
  apply BitVec.eq_of_toNat_eq
  have := trunc8_toNat v
  have := trunc8_toNat w
  omega

end Sys2Proof.Machine
end

