-- ==== Sys2Proof/Laws/PerInstr.lean ====
section
/-! SUPPORT. Facts about every instruction as syntax, one lemma per constructor. -/

namespace Sys2Proof.Laws

/-- The `match` value of the instruction's row in the opcode table (30_encoding.md R55). -/
def tableMatch : Instr → Nat
  | .mov _ _ => 0x0000000000
  | .add _ _ _ => 0x1000000000
  | .sub _ _ _ => 0x2000000000
  | .jmp _ => 0x3000000000

/-- Under the opcode table's mask 0xF000000000 an instruction's word is its row's `match` (R55): the
low 36 bits are below it and the rest is `match`. -/
def OpcodeMatch.Statement (i : Instr) : Prop :=
  (encode i).toNat / 2 ^ 36 * 2 ^ 36 = tableMatch i

theorem assembleWord_high (o : BitVec 4) (a b c : Field) :
    (assembleWord o a b c).toNat / 2 ^ 36 * 2 ^ 36 = o.toNat * 2 ^ 36 := by
  have ha := a.isLt
  have hb := b.isLt
  have hc := c.isLt
  rw [assembleWord_toNat]
  omega

theorem OpcodeMatch.mov (op1 res : Source) : OpcodeMatch.Statement (.mov op1 res) := by
  simp only [OpcodeMatch.Statement, encode, assembleWord_high]
  simp [tableMatch]

theorem OpcodeMatch.add (op1 op2 res : Source) : OpcodeMatch.Statement (.add op1 op2 res) := by
  simp only [OpcodeMatch.Statement, encode, assembleWord_high]
  simp [tableMatch]

theorem OpcodeMatch.sub (op1 op2 res : Source) : OpcodeMatch.Statement (.sub op1 op2 res) := by
  simp only [OpcodeMatch.Statement, encode, assembleWord_high]
  simp [tableMatch]

theorem OpcodeMatch.jmp (offset : Source) : OpcodeMatch.Statement (.jmp offset) := by
  simp only [OpcodeMatch.Statement, encode, assembleWord_high]
  simp [tableMatch]

end Sys2Proof.Laws
end

