-- ==== Sys2Proof/Laws/Pipeline.lean ====
section
/-! SUPPORT. What the event machine's operations do, each said once: `tick`, `drain`, `execute`. -/

namespace Sys2Proof.Machine

@[simp] theorem andThen_next (s : State) (f : State → Result) : andThen (.next s) f = f s := rfl

@[simp] theorem andThen_fault (r : Fault) (f : State → Result) : andThen (.fault r) f = .fault r := rfl

@[simp] theorem andThen_refused (r : Refusal) (f : State → Result) : andThen (.refused r) f = .refused r := rfl

theorem andThen_eq_next {o : Result} {f : State → Result} {u : State} :
    andThen o f = .next u ↔ ∃ t, o = .next t ∧ f t = .next u := by
  cases o <;> simp

/-! ## `drain` -/

@[simp] theorem drain_quiescent (n : Nat) {s : State} (h : s.pend = none) : drain n s = .next s := by
  cases n <;> simp [drain, h]

theorem drain_pending (n : Nat) {s : State} {e : Event} (h : s.pend = some e) :
    drain (n + 1) s = andThen (tick e s) (drain n) := by
  simp [drain, h]

/-- A drain that ends quiescent is the loop of 41_pipeline.md R91. -/
theorem ticksTo_of_drain {n : Nat} {s u : State} (h : drain n s = .next u) (hu : u.pend = none) : TicksTo s u := by
  induction n generalizing s with
  | zero =>
    obtain rfl : s = u := by simpa [drain] using h
    exact .done hu
  | succ n ih =>
    cases hp : s.pend with
    | none =>
      obtain rfl : s = u := by simpa [hp] using h
      exact .done hp
    | some e =>
      rw [drain_pending n hp] at h
      obtain ⟨t, ht, h'⟩ := andThen_eq_next.mp h
      exact .more hp ht (ih h')

/-- The loop of R91 has one result, so any drain that ends quiescent finds it. -/
theorem ticksTo_unique {s u v : State} (hu : TicksTo s u) (hv : TicksTo s v) : u = v := by
  induction hu with
  | done hq =>
    cases hv with
    | done _ => rfl
    | more hp _ _ => rw [hq] at hp; cases hp
  | more hp ht _ ih =>
    cases hv with
    | done hq => rw [hq] at hp; cases hp
    | more hp' ht' hr =>
      rw [hp] at hp'
      obtain rfl := Option.some.inj hp'
      rw [ht] at ht'
      exact ih (by cases ht'; exact hr)

/-! ## `execute` -/

/-- Whether an instruction of this build ends in a Writeback event (41_pipeline.md R95). -/
def endsInWriteback (jumpWb : Bool) (i : Instr) : Bool := if isJump i then jumpWb else isIndirect (dest i)

/-- What an instruction leaves once its result `v` is computed, field by field. -/
def settle (i : Instr) (v : Byte) (s : State) : State :=
  { s with
    x := match dest i with
      | .direct r => s.x.set r.val v
      | .indirect _ => s.x
      | .immediate _ => s.x
    mem := match dest i with
      | .direct _ => s.mem
      | .indirect a => Memory.write s.mem a.val v
      | .immediate _ => s.mem
    cycles := s.cycles + (endsInWriteback s.params.jumpWbEvent i).toNat + (isImmediate (dest i)).toNat
    writeback := s.writeback + (endsInWriteback s.params.jumpWbEvent i).toNat
    exceptions := s.exceptions + (isImmediate (dest i)).toNat
    diagnostics := s.diagnostics ++ if isImmediate (dest i) then [.immDest] else [] }

/-- The charge for fetching the first operand. -/
def chargeOp1 (i : Instr) (s : State) : State :=
  { s with
    cycles := s.cycles + (isIndirect (firstSrc i)).toNat
    fetch1 := s.fetch1 + (isIndirect (firstSrc i)).toNat }

/-- The charge for fetching the second operand. -/
def chargeOp2 (i : Instr) (s : State) : State :=
  { s with
    cycles := s.cycles + (isIndirect (secondSrc i)).toNat
    fetch2 := s.fetch2 + (isIndirect (secondSrc i)).toNat }

/-- What `execute` leaves: the issue cycle, the operand fetches, and the end of the instruction. -/
def afterExecute (i : Instr) (s : State) : State :=
  settle i (trunc8 (resultOf i s)) (chargeOp2 i (chargeOp1 i s.chargeCycle))

/-- The sum and the difference are the same whether the first operand comes from its 8-bit latch or
not (41_pipeline.md R103). -/
theorem trunc8_add_latch (a b : Int) : trunc8 ((trunc8 a).toNat + b) = trunc8 (a + b) := by
  apply trunc8_congr
  rw [trunc8_toNat]
  omega

theorem trunc8_sub_latch (a b : Int) : trunc8 ((trunc8 a).toNat - b) = trunc8 (a - b) := by
  apply trunc8_congr
  rw [trunc8_toNat]
  omega

/-- The writeback decision and the ticks after it. -/
theorem wbDecide_drain {i : Instr} (hj : isJump i = false) (v : Int) {s : State} (n : Nat) (hp : s.pend = none) :
    andThen (wbDecide i v s) (drain (n + 1)) = .next (settle i (trunc8 v) s) := by
  rcases hd : dest i with r | a | w
  · simp only [wbDecide, hd, write, andThen_next]
    rw [drain_quiescent _ (by simpa using hp)]
    simp [settle, endsInWriteback, hj, hd, State.ext_iff]
  · simp only [wbDecide, hd, andThen_next]
    rw [drain_pending n (State.defer_pend _ _)]
    simp only [tick, handleWriteback, hd, write, andThen_next]
    rw [drain_quiescent _ (by simp)]
    simp [settle, endsInWriteback, hj, hd, State.ext_iff, hp]
  · simp only [wbDecide, hd, andThen_next]
    rw [drain_pending n (raiseException_pend _ _)]
    simp only [tick, handleException, andThen_next]
    rw [drain_quiescent _ (by simp)]
    simp [settle, endsInWriteback, hj, hd, State.ext_iff, hp]

/-- The second operand of a Binary, the writeback decision and the ticks after them. -/
theorem resolveOp2_drain {i : Instr} (hj : isJump i = false) (v : Int) {s : State} (n : Nat) (hp : s.pend = none)
    (hf : ∀ (b : Byte) (t : State),
      handleOp2Fetch i b t = wbDecide i (compute i b.toNat (read (secondSrc i) t)) t.countFetch2)
    (hl : ∀ b, trunc8 (compute i (trunc8 v).toNat b) = trunc8 (compute i v b)) :
    andThen (resolveOp2 i (secondSrc i) v s) (drain (n + 2)) =
      .next (settle i (trunc8 (compute i v (read (secondSrc i) s))) (chargeOp2 i s)) := by
  by_cases hind : isIndirect (secondSrc i) = true
  · rw [resolveOp2, if_pos hind, andThen_next, drain_pending (n + 1) (State.defer_pend _ _)]
    simp only [tick, hf]
    rw [wbDecide_drain hj _ _ (by simp)]
    simp [settle, chargeOp2, hind, hl, hp]
  · rw [resolveOp2, if_neg hind, wbDecide_drain hj _ _ hp]
    simp [settle, chargeOp2, hind]

/-- A Jump with its operand resolved, and the tick after it. -/
theorem jumpWriteback_drain (offset : Source) (v : Int) {s : State} (n : Nat) (hp : s.pend = none) :
    andThen (jumpWriteback (.jmp offset) v s) (drain (n + 1)) = .next (settle (.jmp offset) (trunc8 v) s) := by
  by_cases hJ : s.params.jumpWbEvent = true
  · rw [jumpWriteback, if_pos hJ, andThen_next, drain_pending n (State.defer_pend _ _)]
    simp only [tick, handleWriteback, dest, write, andThen_next]
    rw [drain_quiescent _ (by simp)]
    simp [settle, endsInWriteback, isJump, dest, hJ, State.ext_iff, hp]
  · rw [jumpWriteback, if_neg hJ, write, andThen_next, drain_quiescent _ (by simpa using hp)]
    simp [settle, endsInWriteback, isJump, dest, hJ, State.ext_iff]

/-- Everything after the first operand. -/
theorem afterOp1_drain (i : Instr) (v : Int) {s : State} (n : Nat) (hp : s.pend = none) :
    andThen (afterOp1 i v s) (drain (n + 2)) =
      .next (settle i (trunc8 (compute i v (read (secondSrc i) s))) (chargeOp2 i s)) := by
  cases i with
  | mov op1 res =>
    have h := wbDecide_drain (i := .mov op1 res) rfl v (n + 1) hp
    simpa [afterOp1, compute, secondSrc, chargeOp2] using h
  | add op1 op2 res => exact resolveOp2_drain (i := .add op1 op2 res) rfl v n hp (fun _ _ => rfl) fun b => trunc8_add_latch v b
  | sub op1 op2 res => exact resolveOp2_drain (i := .sub op1 op2 res) rfl v n hp (fun _ _ => rfl) fun b => trunc8_sub_latch v b
  | jmp offset =>
    have h := jumpWriteback_drain offset v (n + 1) hp
    simpa [afterOp1, compute, secondSrc, chargeOp2] using h

/-- `execute` from a quiescent state: it always completes, and this is all it does. -/
theorem execute_quiescent (i : Instr) {s : State} (h : s.pend = none) :
    execute i s = .next (afterExecute i s) := by
  unfold execute issue
  simp only [h]
  by_cases hind : isIndirect (firstSrc i) = true
  · rw [if_pos hind, andThen_next, drain_pending 2 (State.defer_pend _ _)]
    simp only [tick, handleOp1Fetch]
    rw [afterOp1_drain i _ 0 (by simp)]
    simp [afterExecute, settle, chargeOp1, chargeOp2, resultOf, hind, h]
  · rw [if_neg hind, afterOp1_drain i _ 1 (by simpa using h)]
    simp [afterExecute, chargeOp1, resultOf, hind]
    rfl

/-- `execute` while an event is pending (93 U6). -/
theorem execute_busy (i : Instr) {s : State} {e : Event} (h : s.pend = some e) :
    execute i s = .refused .notQuiescent := by
  simp [execute, issue, h]

/-- Every arm of `exec` is `execute` of its instruction. -/
theorem exec_eq_execute (i : Instr) (s : State) : exec i s = execute i s := by
  cases i <;> rfl

/-! ## `afterExecute`, field by field -/

@[simp] theorem afterExecute_pend (i : Instr) (s : State) : (afterExecute i s).pend = s.pend := rfl

@[simp] theorem afterExecute_params (i : Instr) (s : State) : (afterExecute i s).params = s.params := rfl

@[simp] theorem afterExecute_inputs (i : Instr) (s : State) : (afterExecute i s).inputs = s.inputs := rfl

theorem afterExecute_x (i : Instr) (s : State) :
    (afterExecute i s).x = match dest i with
      | .direct r => s.x.set r.val (trunc8 (resultOf i s))
      | .indirect _ => s.x
      | .immediate _ => s.x := rfl

theorem afterExecute_mem (i : Instr) (s : State) :
    (afterExecute i s).mem = match dest i with
      | .direct _ => s.mem
      | .indirect a => Memory.write s.mem a.val (trunc8 (resultOf i s))
      | .immediate _ => s.mem := rfl

@[simp] theorem afterExecute_diagnostics (i : Instr) (s : State) :
    (afterExecute i s).diagnostics = s.diagnostics ++ if isImmediate (dest i) then [.immDest] else [] := rfl

@[simp] theorem afterExecute_fetch1 (i : Instr) (s : State) :
    (afterExecute i s).fetch1 = s.fetch1 + (isIndirect (firstSrc i)).toNat := rfl

@[simp] theorem afterExecute_fetch2 (i : Instr) (s : State) :
    (afterExecute i s).fetch2 = s.fetch2 + (isIndirect (secondSrc i)).toNat := rfl

@[simp] theorem afterExecute_writeback (i : Instr) (s : State) :
    (afterExecute i s).writeback = s.writeback + (endsInWriteback s.params.jumpWbEvent i).toNat := rfl

@[simp] theorem afterExecute_exceptions (i : Instr) (s : State) :
    (afterExecute i s).exceptions = s.exceptions + (isImmediate (dest i)).toNat := rfl

@[simp] theorem afterExecute_cycles (i : Instr) (s : State) :
    (afterExecute i s).cycles = s.cycles + cyclesOf s.params.jumpWbEvent i := by
  cases i <;> simp [afterExecute, settle, chargeOp1, chargeOp2, cyclesOf, endsInWriteback, isJump, dest] <;> omega

@[simp] theorem afterExecute_reg (i : Instr) (s : State) (r : Fin 16) :
    (afterExecute i s).reg r = if regOf (dest i) = some r then trunc8 (resultOf i s) else s.reg r := by
  rcases hd : dest i with q | a | w
  · by_cases hq : r = q
    · subst hq
      simp [afterExecute, settle, hd, regOf, State.reg]
    · have hq' : q.val ≠ r.val := fun e => hq (Fin.ext e.symm)
      simp [afterExecute, settle, hd, regOf, State.reg, Ne.symm hq, hq', chargeOp1, chargeOp2]
  · simp [afterExecute, settle, hd, regOf, State.reg, chargeOp1, chargeOp2]
  · simp [afterExecute, settle, hd, regOf, State.reg, chargeOp1, chargeOp2]

@[simp] theorem afterExecute_cell (i : Instr) (s : State) (a : Nat) :
    (afterExecute i s).cell a = if cellOf (dest i) = some a then trunc8 (resultOf i s) else s.cell a := by
  rcases hd : dest i with q | b | w
  · simp [afterExecute, settle, hd, cellOf, State.cell, chargeOp1, chargeOp2]
  · simp [afterExecute, settle, hd, cellOf, State.cell, chargeOp1, chargeOp2, Memory.read_write, eq_comm]
  · simp [afterExecute, settle, hd, cellOf, State.cell, chargeOp1, chargeOp2]

end Sys2Proof.Machine
end

