-- ==== Sys2Proof/Laws/Tick.lean ====
section
/-! SUPPORT. Everything a tick and an issue can do, said once: what they charge, what they leave alone, what they leave pending. -/

namespace Sys2Proof.Machine

/-- What combinational logic inside one clock cycle leaves alone: no counter moves, nothing is
emitted, and the memory keeps its canonical form. -/
structure Combinational (s t : State) : Prop where
  charged : Charged s t 0 0 0 0 0
  params : t.params = s.params
  inputs : t.inputs = s.inputs
  diagnostics : t.diagnostics = s.diagnostics
  memWf : Memory.wf s.mem = true → Memory.wf t.mem = true

theorem Combinational.setReg (s : State) (r : Fin 16) (v : Byte) : Combinational s (s.setReg r v) :=
  ⟨⟨rfl, rfl, rfl, rfl, rfl⟩, rfl, rfl, rfl, id⟩

theorem Combinational.setCell (s : State) (a : Fin 1024) (v : Byte) : Combinational s (s.setCell a v) :=
  ⟨⟨rfl, rfl, rfl, rfl, rfl⟩, rfl, rfl, rfl, fun h => Memory.wf_write h a v⟩

theorem Combinational.defer (s : State) (e : Event) : Combinational s (s.defer e) :=
  ⟨⟨rfl, rfl, rfl, rfl, rfl⟩, rfl, rfl, rfl, id⟩

theorem write_combinational {d : Source} {v : Int} {s t : State} (h : write d v s = .next t) :
    Combinational s t ∧ t.pend = s.pend := by
  obtain ⟨r, rfl, rfl⟩ | ⟨a, rfl, rfl⟩ := write_next h
  · exact ⟨.setReg s r _, rfl⟩
  · exact ⟨.setCell s a _, rfl⟩

/-- The writeback decision never stops; it leaves an event an instruction can produce, or none. -/
theorem wbDecide_total {i : Instr} (hj : isJump i = false) (v : Int) {s : State} (hp : s.pend = none) :
    ∃ t, wbDecide i v s = .next t ∧ Combinational s t ∧ pendOk t = true := by
  rcases hd : dest i with r | a | w
  · exact ⟨s.setReg r (trunc8 v), by simp [wbDecide, hd, write], .setReg s r _, by simp [pendOk, hp]⟩
  · exact ⟨s.defer (.writeback i (trunc8 v)), by simp [wbDecide, hd], .defer s _, by simp [pendOk, eventOk, hj, hd]⟩
  · exact ⟨raiseException .immDest s, by simp [wbDecide, hd], .defer s _, by simp [pendOk, eventOk]⟩

/-- What follows the first operand never stops; it leaves an event an instruction can produce, or none. -/
theorem afterOp1_total (i : Instr) (v : Int) {s : State} (hp : s.pend = none) :
    ∃ t, afterOp1 i v s = .next t ∧ Combinational s t ∧ pendOk t = true := by
  have binary : ∀ op2, isJump i = false → secondSrc i = op2 →
      ∃ t, resolveOp2 i op2 v s = .next t ∧ Combinational s t ∧ pendOk t = true := by
    intro op2 hj h2
    by_cases hind : isIndirect op2 = true
    · exact ⟨s.defer (.op2Fetch i (trunc8 v)), by simp [resolveOp2, hind], .defer s _, by simp [pendOk, eventOk, h2, hind]⟩
    · simpa [resolveOp2, hind] using wbDecide_total hj (compute i v (read op2 s)) hp
  cases i with
  | mov op1 res => exact wbDecide_total rfl _ hp
  | add op1 op2 res => exact binary op2 rfl rfl
  | sub op1 op2 res => exact binary op2 rfl rfl
  | jmp offset =>
    by_cases hJ : s.params.jumpWbEvent = true
    · exact ⟨s.defer (.writeback (.jmp offset) (trunc8 v)), by simp [afterOp1, jumpWriteback, hJ], .defer s _,
        by simp [pendOk, eventOk, isJump, hJ]⟩
    · exact ⟨s.setReg 0 (trunc8 v), by simp [afterOp1, jumpWriteback, hJ, write], .setReg s 0 _, by simp [pendOk, hp]⟩

/-- An issue from a quiescent state never stops: it charges the issue cycle and nothing else, and
leaves an event an instruction can produce, or none. -/
theorem issue_total (i : Instr) {s : State} (hp : s.pend = none) :
    ∃ t, issue i s = .next t ∧ Combinational s.chargeCycle t ∧ pendOk t = true := by
  by_cases hind : isIndirect (firstSrc i) = true
  · exact ⟨s.chargeCycle.defer (.op1Fetch i), by simp [issue, hp, hind], .defer _ _, by simp [pendOk, eventOk, hind]⟩
  · simpa [issue, hp, hind] using afterOp1_total i (read (firstSrc i) s) (s := s.chargeCycle) hp

/-- The cause of the exception an event is, if it is one. -/
def Event.cause? : Event → Option Cause
  | .op1Fetch _ => none
  | .op2Fetch _ _ => none
  | .writeback _ _ => none
  | .exception c => some c

/-- What a tick that completes does, whatever its event. -/
structure Ticked (e : Event) (s t : State) : Prop where
  charged : Charged s t 1 (if e.stage = .op1Fetch then 1 else 0) (if e.stage = .op2Fetch then 1 else 0)
    (if e.stage = .writeback then 1 else 0) (if e.stage = .exception then 1 else 0)
  params : t.params = s.params
  inputs : t.inputs = s.inputs
  diagnostics : t.diagnostics = s.diagnostics ++ e.cause?.toList
  memWf : Memory.wf s.mem = true → Memory.wf t.mem = true
  pendOk : eventOk s.params.jumpWbEvent e = true → Machine.pendOk t = true

theorem ticked_of_combinational {e : Event} {s u t : State} (hu : Combinational u t) (hpar : u.params = s.params)
    (hin : u.inputs = s.inputs) (hd : u.diagnostics = s.diagnostics ++ e.cause?.toList) (hmem : u.mem = s.mem)
    (hc : Charged s u 1 (if e.stage = .op1Fetch then 1 else 0) (if e.stage = .op2Fetch then 1 else 0)
      (if e.stage = .writeback then 1 else 0) (if e.stage = .exception then 1 else 0))
    (hp : eventOk s.params.jumpWbEvent e = true → pendOk t = true) : Ticked e s t := by
  obtain ⟨h1, h2, h3, h4, h5⟩ := hu.charged
  obtain ⟨c1, c2, c3, c4, c5⟩ := hc
  exact ⟨⟨by omega, by omega, by omega, by omega, by omega⟩, hu.params.trans hpar, hu.inputs.trans hin,
    hu.diagnostics.trans hd, fun h => hu.memWf (hmem ▸ h), hp⟩

/-- A tick completes, or it is a Writeback event that holds a literal destination, which no
instruction produces. -/
theorem tick_cases (e : Event) (s : State) :
    (∃ t, tick e s = .next t ∧ Ticked e s t) ∨
      ∃ i v, e = .writeback i v ∧ isImmediate (dest i) = true ∧ tick e s = .fault .logicFault := by
  cases e with
  | op1Fetch i =>
    obtain ⟨t, ht, hc, hp⟩ := afterOp1_total i (read (firstSrc i) s.consume) (s := s.consume.countFetch1) rfl
    exact .inl ⟨t, ht, ticked_of_combinational hc rfl rfl (by simp [Event.cause?]) rfl (by simp [Charged, Event.stage])
      fun _ => hp⟩
  | op2Fetch i v =>
    left
    have single : tick (.op2Fetch i v) s = .next (raiseException .op2Single s.consume.countFetch2) →
        isIndirect (secondSrc i) = false → ∃ t, tick (.op2Fetch i v) s = .next t ∧ Ticked (.op2Fetch i v) s t :=
      fun h hne => ⟨_, h, ticked_of_combinational (u := s.consume.countFetch2) (.defer _ _) rfl rfl
        (by simp [Event.cause?]) rfl (by simp [Charged, Event.stage]) fun he => by simp [eventOk, hne] at he⟩
    have binary : isJump i = false → ∀ b, tick (.op2Fetch i v) s = wbDecide i b s.consume.countFetch2 →
        ∃ t, tick (.op2Fetch i v) s = .next t ∧ Ticked (.op2Fetch i v) s t := fun hj b h => by
      obtain ⟨t, ht, hc, hp⟩ := wbDecide_total hj b (s := s.consume.countFetch2) rfl
      exact ⟨t, h.trans ht, ticked_of_combinational hc rfl rfl (by simp [Event.cause?]) rfl
        (by simp [Charged, Event.stage]) fun _ => hp⟩
    cases i with
    | mov op1 res => exact single rfl rfl
    | add op1 op2 res => exact binary rfl _ rfl
    | sub op1 op2 res => exact binary rfl _ rfl
    | jmp offset => exact single rfl rfl
  | writeback i v =>
    rcases hd : dest i with r | a | w
    · exact .inl ⟨s.consume.countWriteback.setReg r v, by simp [tick, handleWriteback, hd, write],
        ticked_of_combinational (u := s.consume.countWriteback) (.setReg _ r v) rfl rfl (by simp [Event.cause?]) rfl
          (by simp [Charged, Event.stage]) fun _ => rfl⟩
    · exact .inl ⟨s.consume.countWriteback.setCell a v, by simp [tick, handleWriteback, hd, write],
        ticked_of_combinational (u := s.consume.countWriteback) (.setCell _ a v) rfl rfl (by simp [Event.cause?]) rfl
          (by simp [Charged, Event.stage]) fun _ => rfl⟩
    · exact .inr ⟨i, v, rfl, by simp [hd], by simp [tick, handleWriteback, hd, write]⟩
  | exception c =>
    exact .inl ⟨takeException c s.consume, rfl, ⟨by simp [Charged, Event.stage], rfl, rfl, by simp [Event.cause?],
      id, fun _ => rfl⟩⟩

/-- A tick of an event an instruction can produce completes. -/
theorem tick_total {e : Event} {s : State} (he : eventOk s.params.jumpWbEvent e = true) :
    ∃ t, tick e s = .next t ∧ Ticked e s t := by
  obtain h | ⟨i, v, rfl, hi, -⟩ := tick_cases e s
  · exact h
  · cases i with
    | jmp offset => simp [dest] at hi
    | mov op1 res => cases res <;> simp_all [eventOk, isJump, dest]
    | add op1 op2 res => cases res <;> simp_all [eventOk, isJump, dest]
    | sub op1 op2 res => cases res <;> simp_all [eventOk, isJump, dest]

/-- A tick that answers a next state did what a tick does. -/
theorem tick_next {e : Event} {s t : State} (h : tick e s = .next t) : Ticked e s t := by
  obtain ⟨t', ht', hT⟩ | ⟨i, v, rfl, hi, hf⟩ := tick_cases e s
  · rw [ht'] at h
    cases h
    exact hT
  · rw [hf] at h
    cases h

/-- A tick never refuses. -/
theorem tick_not_refused (e : Event) (s : State) (r : Refusal) : tick e s ≠ .refused r := by
  obtain ⟨t', ht', -⟩ | ⟨i, v, -, -, hf⟩ := tick_cases e s
  · simp [ht']
  · simp [hf]

/-- An instruction answers a next state exactly from a quiescent state. -/
theorem exec_eq_next {i : Instr} {s t : State} : exec i s = .next t ↔ s.pend = none ∧ t = afterExecute i s := by
  rw [exec_eq_execute]
  cases hp : s.pend with
  | none => simp [execute_quiescent i hp, eq_comm]
  | some e => simp [execute_busy i hp]

/-- The state after an instruction keeps the canonical memory. -/
theorem afterExecute_memWf (i : Instr) {s : State} (h : Memory.wf s.mem = true) :
    Memory.wf (afterExecute i s).mem = true := by
  rcases hd : dest i with r | a | w
  · simpa [afterExecute, settle, hd, chargeOp1, chargeOp2] using h
  · simpa [afterExecute, settle, hd, chargeOp1, chargeOp2] using Memory.wf_write h a _
  · simpa [afterExecute, settle, hd, chargeOp1, chargeOp2] using h

end Sys2Proof.Machine
end

