-- ==== Sys2Proof/Laws/Step.lean ====
section
/-! SUPPORT. Everything an edge and a step can do, said once. -/

namespace Sys2Proof.Machine

/-- What an edge does, by its inputs and what is pending: reset, busy, idle, accept. -/
theorem edge_cases (p : PortIn) (s : State) :
    (p.rst = true ∧ edge p s = .next s.hardwareReset) ∨
      (p.rst = false ∧ ∃ e, s.pend = some e ∧ edge p s = tick e s) ∨
      (p.rst = false ∧ s.pend = none ∧ p.instrValid = false ∧ edge p s = .next s) ∨
      (p.rst = false ∧ s.pend = none ∧ p.instrValid = true ∧ ∃ i, decode p.instr = .ok i ∧ edge p s = issue i s) ∨
      p.rst = false ∧ s.pend = none ∧ p.instrValid = true ∧
        ∃ e, decode p.instr = .error e ∧ edge p s = .refused (.invalidWord e) := by
  cases hr : p.rst with
  | true => exact .inl ⟨rfl, by simp [edge, hr]⟩
  | false =>
    refine .inr ?_
    cases hp : s.pend with
    | some e => exact .inl ⟨rfl, e, rfl, by simp [edge, hr, hp]⟩
    | none =>
      refine .inr ?_
      cases hv : p.instrValid with
      | false => exact .inl ⟨rfl, rfl, rfl, by simp [edge, hr, hp, hv]⟩
      | true =>
        refine .inr ?_
        cases hd : decode p.instr with
        | ok i => exact .inl ⟨rfl, rfl, rfl, i, rfl, by simp [edge, hr, hp, hv, hd]⟩
        | error e => exact .inr ⟨rfl, rfl, rfl, e, rfl, by simp [edge, hr, hp, hv, hd]⟩

/-- What the core does with a move: execute an instruction, refuse an invalid word, or a clock edge. -/
theorem deliver_cases (m : HarnessMove) (s : State) :
    (∃ i, (m = .call i ∨ ∃ w, m = .callWord w ∧ decode w = .ok i) ∧ deliver m s = exec i s) ∨
      (∃ w e, m = .callWord w ∧ decode w = .error e ∧ deliver m s = .refused (.invalidWord e)) ∨
      ∃ p, m = .edge p ∧ deliver m s = edge p s := by
  cases m with
  | call i => exact .inl ⟨i, .inl rfl, rfl⟩
  | callWord w =>
    cases hd : decode w with
    | ok i => exact .inl ⟨i, .inr ⟨w, rfl, hd⟩, by simp [deliver, hd]⟩
    | error e => exact .inr (.inl ⟨w, e, rfl, hd, by simp [deliver, hd]⟩)
  | edge p => exact .inr (.inr ⟨p, rfl, rfl⟩)

/-- A step with a move waiting. -/
theorem step_cons {s : State} {m : HarnessMove} {rest : List HarnessMove} (h : s.inputs = m :: rest) :
    step s = deliver m { s with inputs := rest } := by
  simp [step, nextMove, h]

/-- A step with no move waiting is an idle edge. -/
theorem step_nil {s : State} (h : s.inputs = []) : step s = edge PortIn.idle s := by
  have hs : ({ s with inputs := [] } : State) = s := by
    cases s
    simp_all
  simp [step, nextMove, h, deliver, hs]

/-- Every step that answers a next state is one of five: an instruction executed, a reset, a tick, an
idle edge, an issue. -/
theorem step_next {s t : State} (h : step s = .next t) :
    (∃ i, ({ s with inputs := s.inputs.tail } : State).pend = none ∧
        t = afterExecute i { s with inputs := s.inputs.tail }) ∨
      t = ({ s with inputs := s.inputs.tail } : State).hardwareReset ∨
      (∃ e, s.pend = some e ∧ tick e { s with inputs := s.inputs.tail } = .next t) ∨
      t = { s with inputs := s.inputs.tail } ∨
      ∃ i, s.pend = none ∧ issue i { s with inputs := s.inputs.tail } = .next t := by
  have hs : step s = deliver (nextMove s.inputs).1 { s with inputs := s.inputs.tail } := by
    cases hi : s.inputs <;> simp [step, nextMove, hi]
  rw [hs] at h
  obtain ⟨i, -, hd⟩ | ⟨w, e, -, -, hd⟩ | ⟨p, -, hd⟩ := deliver_cases (nextMove s.inputs).1 { s with inputs := s.inputs.tail }
  · obtain ⟨hp, rfl⟩ := exec_eq_next.mp (hd ▸ h)
    exact .inl ⟨i, hp, rfl⟩
  · rw [hd] at h
    cases h
  · rw [hd] at h
    obtain ⟨-, he⟩ | ⟨-, e, hp, he⟩ | ⟨-, -, -, he⟩ | ⟨-, hp, -, i, -, he⟩ | ⟨-, -, -, e, -, he⟩ :=
      edge_cases p { s with inputs := s.inputs.tail } <;> rw [he] at h
    · cases h
      exact .inr (.inl rfl)
    · exact .inr (.inr (.inl ⟨e, hp, h⟩))
    · cases h
      exact .inr (.inr (.inr (.inl rfl)))
    · exact .inr (.inr (.inr (.inr ⟨i, hp, h⟩)))
    · cases h

end Sys2Proof.Machine
end

