-- ==== Sys2Proof/Laws/Relational.lean ====
section
/-! SUPPORT. Two runs side by side: a relation that looks past some fields of the state is kept by every part of the event machine. -/

namespace Sys2Proof.Machine

/-- A relation between states that agree on what the event machine looks at, and that every update of
Machine/Ops.lean it uses keeps. -/
structure Simulates (R : State → State → Prop) : Prop where
  x : ∀ {s t}, R s t → s.x = t.x
  mem : ∀ {s t}, R s t → s.mem = t.mem
  pend : ∀ {s t}, R s t → s.pend = t.pend
  params : ∀ {s t}, R s t → s.params = t.params
  setReg : ∀ {s t} r v, R s t → R (s.setReg r v) (t.setReg r v)
  setCell : ∀ {s t} a v, R s t → R (s.setCell a v) (t.setCell a v)
  defer : ∀ {s t} e, R s t → R (s.defer e) (t.defer e)
  chargeCycle : ∀ {s t}, R s t → R s.chargeCycle t.chargeCycle
  consume : ∀ {s t}, R s t → R s.consume t.consume
  countFetch1 : ∀ {s t}, R s t → R s.countFetch1 t.countFetch1
  countFetch2 : ∀ {s t}, R s t → R s.countFetch2 t.countFetch2
  countWriteback : ∀ {s t}, R s t → R s.countWriteback t.countWriteback
  takeException : ∀ {s t} c, R s t → R (takeException c s) (takeException c t)
  hardwareReset : ∀ {s t}, R s t → R s.hardwareReset t.hardwareReset

/-- Two answers are alike: related next states, or the same stop. -/
inductive Alike (R : State → State → Prop) : Result → Result → Prop where
  | next {s t : State} (h : R s t) : Alike R (.next s) (.next t)
  | fault (f : Fault) : Alike R (.fault f) (.fault f)
  | refused (r : Refusal) : Alike R (.refused r) (.refused r)

theorem Alike.andThen {R : State → State → Prop} {o o' : Result} {f : State → Result} (h : Alike R o o')
    (hf : ∀ s t, R s t → Alike R (f s) (f t)) : Alike R (andThen o f) (andThen o' f) := by
  cases h with
  | next h => exact hf _ _ h
  | fault f => exact .fault f
  | refused r => exact .refused r

section
variable {R : State → State → Prop} (hR : Simulates R)
include hR

theorem Simulates.read {s t : State} (h : R s t) (src : Source) : read src s = read src t :=
  read_congr (hR.x h) (hR.mem h) src

theorem Simulates.write {s t : State} (h : R s t) (d : Source) (v : Int) : Alike R (write d v s) (write d v t) := by
  cases d with
  | direct r => exact .next (hR.setReg r _ h)
  | indirect a => exact .next (hR.setCell a _ h)
  | immediate w => exact .fault _

theorem Simulates.wbDecide {s t : State} (h : R s t) (i : Instr) (v : Int) :
    Alike R (wbDecide i v s) (wbDecide i v t) := by
  unfold Machine.wbDecide
  cases dest i with
  | direct r => exact hR.write h _ v
  | indirect a => exact .next (hR.defer _ h)
  | immediate w => exact .next (hR.defer _ h)

theorem Simulates.resolveOp2 {s t : State} (h : R s t) (i : Instr) (op2 : Source) (v : Int) :
    Alike R (resolveOp2 i op2 v s) (resolveOp2 i op2 v t) := by
  unfold Machine.resolveOp2
  rw [hR.read h]
  split
  · exact .next (hR.defer _ h)
  · exact hR.wbDecide h i _

theorem Simulates.afterOp1 {s t : State} (h : R s t) (i : Instr) (v : Int) :
    Alike R (afterOp1 i v s) (afterOp1 i v t) := by
  cases i with
  | mov op1 res => exact hR.wbDecide h _ _
  | add op1 op2 res => exact hR.resolveOp2 h _ op2 v
  | sub op1 op2 res => exact hR.resolveOp2 h _ op2 v
  | jmp offset =>
    unfold Machine.afterOp1 jumpWriteback
    simp only [hR.params h]
    split
    · exact .next (hR.defer _ h)
    · exact hR.write h _ v

theorem Simulates.issue {s t : State} (h : R s t) (i : Instr) : Alike R (issue i s) (issue i t) := by
  unfold Machine.issue
  rw [hR.pend h, hR.read h]
  cases t.pend with
  | some e => exact .refused _
  | none =>
    simp only
    split
    · exact .next (hR.defer _ (hR.chargeCycle h))
    · exact hR.afterOp1 (hR.chargeCycle h) i _

theorem Simulates.tick {s t : State} (h : R s t) (e : Event) : Alike R (tick e s) (tick e t) := by
  have hc := hR.consume h
  cases e with
  | op1Fetch i =>
    simp only [Machine.tick, handleOp1Fetch, hR.read hc]
    exact hR.afterOp1 (hR.countFetch1 hc) i _
  | op2Fetch i v =>
    cases i with
    | mov op1 res => exact .next (hR.defer _ (hR.countFetch2 hc))
    | add op1 op2 res =>
      simp only [Machine.tick, handleOp2Fetch, hR.read hc]
      exact hR.wbDecide (hR.countFetch2 hc) _ _
    | sub op1 op2 res =>
      simp only [Machine.tick, handleOp2Fetch, hR.read hc]
      exact hR.wbDecide (hR.countFetch2 hc) _ _
    | jmp offset => exact .next (hR.defer _ (hR.countFetch2 hc))
  | writeback i v => exact hR.write (hR.countWriteback hc) _ _
  | exception c => exact .next (hR.takeException c hc)

theorem Simulates.drain (n : Nat) : ∀ s t, R s t → Alike R (drain n s) (drain n t) := by
  induction n with
  | zero => exact fun s t h => .next h
  | succ n ih =>
    intro s t h
    cases hp : t.pend with
    | none =>
      rw [drain_quiescent _ hp, drain_quiescent _ ((hR.pend h).trans hp)]
      exact .next h
    | some e =>
      rw [drain_pending n hp, drain_pending n ((hR.pend h).trans hp)]
      exact (hR.tick h e).andThen ih

theorem Simulates.execute {s t : State} (h : R s t) (i : Instr) : Alike R (execute i s) (execute i t) :=
  (hR.issue h i).andThen (hR.drain 3)

theorem Simulates.edge {s t : State} (h : R s t) (p : PortIn) : Alike R (edge p s) (edge p t) := by
  have hp := hR.pend h
  obtain ⟨hr, he⟩ | ⟨hr, e, hp', he⟩ | ⟨hr, hp', hv, he⟩ | ⟨hr, hp', hv, i, hd, he⟩ | ⟨hr, hp', hv, e, hd, he⟩ :=
    edge_cases p t <;> rw [he]
  · rw [show Machine.edge p s = .next s.hardwareReset by simp [Machine.edge, hr]]
    exact .next (hR.hardwareReset h)
  · rw [show Machine.edge p s = Machine.tick e s by simp [Machine.edge, hp, hp', hr]]
    exact hR.tick h e
  · rw [show Machine.edge p s = .next s by simp [Machine.edge, hp, hp', hr, hv]]
    exact .next h
  · rw [show Machine.edge p s = Machine.issue i s by simp [Machine.edge, hp, hp', hr, hv, hd]]
    exact hR.issue h i
  · rw [show Machine.edge p s = .refused (.invalidWord e) by simp [Machine.edge, hp, hp', hr, hv, hd]]
    exact .refused _

end

/-! ## Two such relations -/

/-- The states are equal but for the harness's waiting moves, which are `l` on the right. -/
def SameButInputs (l : List HarnessMove) (s t : State) : Prop := t = { s with inputs := l }

theorem simulates_sameButInputs (l : List HarnessMove) : Simulates (SameButInputs l) := by
  constructor <;> intros <;> simp_all [SameButInputs, State.setReg, State.setCell, State.defer, State.chargeCycle,
    State.consume, State.countFetch1, State.countFetch2, State.countWriteback, takeException, State.hardwareReset]

theorem simulates_sameButCounters : Simulates SameButCounters := by
  constructor <;> intros <;> simp_all [SameButCounters]

end Sys2Proof.Machine
end

