-- ==== Sys2Proof/Tests/Slice0.lean ====
section
/-! SUPPORT. Tests: ill-formed terms, words of the spec's tables, vectors of 95_test_vectors.md, and for every statement with hypotheses a state and operands that meet them. -/

namespace Sys2Proof.Machine.Tests

/-! ## States the tests start from -/

/-- The start state S0 of 95_test_vectors.md part 2.2, for a build with this JUMP_WB_EVENT. -/
def s0 (jumpWb : Bool) : State :=
  { State.reset with x := (State.reset.x.set 1 200#8).set 2 100#8, mem := [(16, 7#8), (17, 9#8)], params := ⟨jumpWb⟩ }

/-- S0 of the default build with these moves waiting. -/
def moves (ms : List HarnessMove) : State := { s0 true with inputs := ms }

/-- S0 of the default build with an event pending and these moves waiting. -/
def pending (e : Event) (ms : List HarnessMove) : State := { moves ms with pend := some e }

/-- The state an answer leaves, if it is a next state. -/
def after : Result → Option State
  | .next s => some s
  | .fault _ => none
  | .refused _ => none

/-- The counters, in the spec's order. -/
def counters (s : State) : List Nat := [s.cycles, s.fetch1, s.fetch2, s.writeback, s.exceptions]

/-- Cell 16, cell 17 and cell 32. -/
def m16 : Source := .indirect 16

def m17 : Source := .indirect 17

def m32 : Source := .indirect 32

/-- ADD [16], [17] -> [32]. -/
def addAll : Instr := .add m16 m17 m32

/-- MOV r0 -> #1. -/
def movFault : Instr := .mov (.direct 0) (.immediate 1)

/-- An edge that presents a word, and one with reset. -/
def present (w : Word) : PortIn := ⟨false, true, w⟩

def resetIn : PortIn := ⟨true, true, 0x0805000003#40⟩

/-! ## Ill-formed instructions (30_encoding.md R52) -/

theorem test_ill_formed_literal :
    Source.wellFormed (.immediate 256) = false ∧ Source.wellFormed (.immediate (-1)) = false ∧
      Source.wellFormed (.immediate 255) = true ∧ Source.wellFormed (.immediate 0) = true := by decide

theorem test_ill_formed_mov :
    Instr.wellFormed (.mov (.immediate 256) (.direct 0)) = false ∧
      Instr.wellFormed (.mov (.direct 0) (.immediate (-1))) = false := by decide

theorem test_ill_formed_add :
    Instr.wellFormed (.add (.immediate (-1)) (.direct 0) (.direct 0)) = false ∧
      Instr.wellFormed (.add (.direct 0) (.immediate 256) (.direct 0)) = false ∧
      Instr.wellFormed (.add (.direct 0) (.direct 0) (.immediate 300)) = false := by decide

theorem test_ill_formed_sub :
    Instr.wellFormed (.sub (.immediate 256) (.direct 0) (.direct 0)) = false ∧
      Instr.wellFormed (.sub (.direct 0) (.immediate (-5)) (.direct 0)) = false ∧
      Instr.wellFormed (.sub (.direct 0) (.direct 0) (.immediate 256)) = false := by decide

theorem test_ill_formed_jmp : Instr.wellFormed (.jmp (.immediate 256)) = false := by decide

/-! ## Words, field by field from 30_encoding.md R53, R54; values of 95_test_vectors.md part 2.1 -/

/-- MOV #5 -> r3: opcode, S1 immediate 5, S2 ignored, SD register 3. -/
theorem test_decode_mov :
    decode 0b0000_100000000101_000000000000_000000000011#40 = .ok (.mov (.immediate 5) (.direct 3)) ∧
      decode 0x0400000401#40 = .ok (.mov (.indirect 0) (.indirect 1)) ∧
      decode 0x0805ABC003#40 = .ok (.mov (.immediate 5) (.direct 3)) ∧
      decode 0x0000000801#40 = .ok (.mov (.direct 0) (.immediate 1)) := by decide

/-- ADD r1, [4] -> r2. -/
theorem test_decode_add :
    decode 0b0001_000000000001_010000000100_000000000010#40 = .ok (.add (.direct 1) (.indirect 4) (.direct 2)) ∧
      decode 0x18C8864000#40 = .ok (.add (.immediate 200) (.immediate 100) (.direct 0)) := by decide

/-- SUB r15, #255 -> [1023]. -/
theorem test_decode_sub :
    decode 0b0010_000000001111_100011111111_011111111111#40 =
      .ok (.sub (.direct 15) (.immediate 255) (.indirect 1023)) := by decide

/-- JMP [1023], and JMP #5 with S2 and SD ignored. -/
theorem test_decode_jmp :
    decode 0b0011_011111111111_000000000000_000000000000#40 = .ok (.jmp (.indirect 1023)) ∧
      decode 0x3805000FFF#40 = .ok (.jmp (.immediate 5)) ∧ decode 0x300F000000#40 = .ok (.jmp (.direct 15)) := by decide

theorem test_decode_refused :
    decode 0xF805000003#40 = .error .reservedOpcode ∧ decode 0x1001C00002#40 = .error .reservedMode ∧
      decode 0x0805000C00#40 = .error .reservedMode ∧ decode 0x08050003F3#40 = .error .nonzeroMustBeZero ∧
      decode 0x3C00000000#40 = .error .reservedMode := by decide

/-- The accepted neighbours the spec lists beside its refused words. -/
theorem test_decode_neighbours :
    decode 0x3805000003#40 = .ok (.jmp (.immediate 5)) ∧
      decode 0x0800000003#40 = .ok (.mov (.immediate 0) (.direct 3)) ∧
      decode 0x000F000003#40 = .ok (.mov (.direct 15) (.direct 3)) ∧
      decode 0x08FF000003#40 = .ok (.mov (.immediate 255) (.direct 3)) ∧
      decode 0x1001800002#40 = .ok (.add (.direct 1) (.immediate 0) (.direct 2)) ∧
      decode 0x0805000800#40 = .ok (.mov (.immediate 5) (.immediate 0)) := by decide

/-- The words 95_test_vectors.md gives for these instructions. -/
theorem test_encode :
    encode (.mov (.direct 1) m32) = 0x0001000420#40 ∧ encode addAll = 0x1410411420#40 ∧
      encode (.sub (.direct 1) m17 (.immediate 1)) = 0x2001411801#40 ∧ encode (.jmp m16) = 0x3410000000#40 ∧
      encode (.mov (.immediate (-1)) (.direct 5)) = 0x08FF000005#40 := by decide

/-- The words as the host numbers them: the opcode table's 40-bit rows. -/
theorem test_table_word :
    decodeTableWord 40 0x0805000003 = some (.mov (.immediate 5) (.direct 3)) ∧ decodeTableWord 40 0x4000000000 = none := by
  decide

/-! ## Assembler text (95_test_vectors.md parts 1 and 2.3) -/

theorem test_assemble :
    assembleLine "ADD r1, [4] -> r2 ; scenario B".toList = some (.add (.direct 1) (.indirect 4) (.direct 2)) ∧
      assembleLine "MOV #300 -> r5".toList = some (.mov (.immediate 44) (.direct 5)) ∧
      assembleLine "MOV #-1 -> r5".toList = some (.mov (.immediate 255) (.direct 5)) ∧
      assembleLine "JMP [0x3FF]".toList = some (.jmp (.indirect 1023)) ∧
      assembleLine "MOV r16 -> r0".toList = none ∧ assembleLine "MOV r1 -> [1024]".toList = none := by decide

theorem test_disassemble :
    disassemble (.sub (.direct 15) (.immediate 255) (.indirect 1023)) = "SUB r15, #255 -> [1023]".toList := by decide

/-! ## One instruction from S0 (95_test_vectors.md parts 2.2 and 2.6, its row numbers) -/

/-- Row 5: MOV [16] -> [32]. -/
theorem test_mov_memory :
    (after (exec (.mov m16 m32) (s0 true))).map (fun t => (t.mem, counters t)) =
      some ([(16, 7#8), (17, 9#8), (32, 7#8)], [3, 1, 0, 1, 0]) := by decide

/-- MOV r0 -> #1 faults: counted, nothing written, the cause on the diagnostic. -/
theorem test_mov_literal_destination :
    (after (exec movFault (s0 true))).map (fun t => (t.x, t.mem, counters t, t.diagnostics)) =
      some ((s0 true).x, (s0 true).mem, [2, 0, 0, 0, 1], [.immDest]) := by decide

/-- Row 10: ADD r1, r2 -> r3 wraps. -/
theorem test_add_wraps :
    (after (exec (.add (.direct 1) (.direct 2) (.direct 3)) (s0 true))).map (fun t => (t.reg 3, counters t)) =
      some (44#8, [1, 0, 0, 0, 0]) := by decide

/-- Row 23: every operand and the destination in memory. -/
theorem test_add_all_memory :
    (after (exec addAll (s0 true))).map (fun t => (t.cell 32, counters t)) = some (16#8, [4, 1, 1, 1, 0]) := by decide

/-- Row 49: SUB [16], [17] -> r3, 7 - 9. -/
theorem test_sub_borrows :
    (after (exec (.sub m16 m17 (.direct 3)) (s0 true))).map (fun t => (t.reg 3, counters t)) =
      some (254#8, [3, 1, 1, 0, 0]) := by decide

/-- Row 42: SUB r1, [17] -> #1 charges its fetch before it faults. -/
theorem test_sub_literal_destination :
    (after (exec (.sub (.direct 1) m17 (.immediate 1)) (s0 true))).map (fun t => (t.mem, counters t)) =
      some ([(16, 7#8), (17, 9#8)], [3, 0, 1, 0, 1]) := by decide

/-- Row 65, JUMP_WB_EVENT = true. -/
theorem test_jmp_with_writeback_event :
    (after (exec (.jmp m16) (s0 true))).map (fun t => (t.reg 0, counters t)) = some (7#8, [3, 1, 0, 1, 0]) := by decide

/-- Row 65, JUMP_WB_EVENT = false. -/
theorem test_jmp_without_writeback_event :
    (after (exec (.jmp m16) (s0 false))).map (fun t => (t.reg 0, counters t)) = some (7#8, [2, 1, 0, 0, 0]) := by decide

/-- The host's fetch: from reset with this word placed, the next step runs it. -/
theorem test_fetch_from_reset :
    (after (step (State.reset.withFetchWord 40 0x0805000003))).map (fun t => (t.reg 3, counters t)) =
      some (5#8, [1, 0, 0, 0, 0]) := by decide

/-- Part 2.6, last paragraph: OP2_SINGLE from an event no instruction produces. -/
theorem test_op2_single :
    (after (tick (.op2Fetch (.mov (.direct 1) (.direct 3)) 0#8) (s0 true))).map (fun t => (t.pend, counters t)) =
      some (some (.exception .op2Single), [1, 0, 1, 0, 0]) := by decide

/-! ## Hypotheses are met: encoding -/

theorem test_witness_EncodedInstructionDecodesBack :
    Instr.wellFormed (.add (.immediate 255) (.indirect 1023) (.direct 15)) = true ∧
      Instr.wellFormed (.mov (.immediate 0) (.immediate 255)) = true ∧ Instr.wellFormed (.jmp (.direct 0)) = true := by
  decide

theorem test_witness_DecodedWordEncodesBack :
    decode 0x17FF7FF7FF#40 = .ok (.add (.indirect 1023) (.indirect 1023) (.indirect 1023)) ∧
      ignoredFieldsZero 0x17FF7FF7FF#40 = true ∧
      decode 0x0805ABC003#40 = .ok (.mov (.immediate 5) (.direct 3)) ∧ ignoredFieldsZero 0x0805ABC003#40 = false := by
  decide

theorem test_witness_InvalidWordsAreRefused :
    validWord 0x4000000000#40 = false ∧ validWord 0x37FFFFFFFF#40 = true ∧ validWord 0x0900000003#40 = false ∧
      (moves [.callWord 0x4000000000#40]).inputs = .callWord 0x4000000000#40 :: [] ∧
      (moves [.edge (present 0x4000000000#40)]).inputs = .edge (present 0x4000000000#40) :: [] ∧
      accepts (present 0x4000000000#40) (moves [.edge (present 0x4000000000#40)]) = true := by decide

theorem test_witness_IgnoredFieldsDoNotMatter :
    (0x0805ABC003#40).toNat / 2 ^ 36 = 0 ∧ (0x0805ABC003#40).toNat / 2 ^ 24 = (0x0805FFF003#40).toNat / 2 ^ 24 ∧
      (0x0805ABC003#40).toNat % 2 ^ 12 = (0x0805FFF003#40).toNat % 2 ^ 12 ∧
      (0x3805FFF801#40).toNat / 2 ^ 36 = 3 ∧ (0x3805FFF801#40).toNat / 2 ^ 24 = (0x3805000FFF#40).toNat / 2 ^ 24 := by
  decide

theorem test_witness_StepRunsCalledInstruction :
    (moves [.call addAll]).inputs = .call addAll :: [] ∧
      (moves [.callWord 0x1410411420#40]).inputs = .callWord 0x1410411420#40 :: [] ∧
      decode 0x1410411420#40 = .ok addAll ∧ decodeTableWord 40 0x1410411420 = some addAll := by decide

/-! ## Hypotheses are met: instructions. S0 is quiescent in both builds -/

theorem test_witness_MovStoresOperand :
    (s0 true).pend = none ∧ (s0 false).pend = none ∧ isImmediate (.direct 15) = false ∧
      isImmediate (.indirect 1023) = false := by decide

theorem test_witness_AddStoresSum : (s0 true).pend = none ∧ isImmediate (.direct 0) = false ∧ isImmediate m32 = false := by
  decide

theorem test_witness_SubStoresDifference :
    (s0 false).pend = none ∧ isImmediate (.direct 0) = false ∧ isImmediate m32 = false := by decide

theorem test_witness_JmpWritesRegisterZero : (s0 true).pend = none ∧ (s0 false).pend = none := by decide

theorem test_witness_LiteralDestinationTakesException :
    (s0 true).pend = none ∧ isImmediate (dest movFault) = true ∧
      isImmediate (dest (.add m16 m17 (.immediate 0))) = true ∧
      isImmediate (dest (.sub m16 m17 (.immediate 255))) = true := by decide

theorem test_witness_RunContinuesUnaffectedByFault :
    (s0 true).pend = none ∧ isImmediate (dest movFault) = true ∧ ∃ t, exec movFault (s0 true) = .next t := by
  exact ⟨by decide, by decide, _, rfl⟩

theorem test_witness_MovOntoItselfOnlyCounts : (s0 true).pend = none ∧ Memory.wf (s0 true).mem = true := by decide

theorem test_witness_AddCommutesInValueNotInFetches : (s0 true).pend = none := by decide

theorem test_witness_SumsAndDifferencesWrap :
    (s0 true).pend = none ∧ read (.direct 1) (s0 true) = (200#8).toNat ∧ read m16 (s0 true) = (7#8).toNat ∧
      read (.immediate 255) (s0 true) = (255#8).toNat ∧ read (.immediate 0) (s0 true) = (0#8).toNat := by decide

theorem test_witness_JmpEqualsMovToRegisterZero : (s0 true).pend = none ∧ (s0 false).pend = none := by decide

theorem test_witness_AllMemoryBinaryTakesFourCycles :
    (s0 true).pend = none ∧ ∃ u, exec addAll (s0 true) = .next u ∧ u.cycles = (s0 true).cycles + 4 := by
  exact ⟨by decide, _, rfl, by decide⟩

theorem test_witness_RegistersReadBackWhatWasWritten :
    (s0 true).pend = none ∧ dest (.jmp m16) = .direct 0 ∧ dest (.mov m16 (.direct 15)) = .direct 15 ∧
      isImmediate (.direct 0) = false ∧ isImmediate (.indirect 0) = false := by decide

theorem test_witness_NextInstructionSeesResult :
    (s0 true).pend = none ∧ isImmediate (dest addAll) = false ∧ isImmediate (dest (.jmp m32)) = false := by decide

/-! ## Hypotheses are met: the event machine -/

theorem test_witness_IssueCycle :
    (s0 true).pend = none ∧ isIndirect (firstSrc addAll) = true ∧ isIndirect (firstSrc movFault) = false ∧
      (after (issue addAll (s0 true))).map State.pend = some (some (.op1Fetch addAll)) ∧
      carries (.op1Fetch addAll) = some addAll ∧
      (pending (.exception .immDest) []).pend = some (.exception .immDest) := by decide

theorem test_witness_AcceptingEdgeIssues :
    (moves [.edge (present 0x1410411420#40)]).inputs = .edge (present 0x1410411420#40) :: [] ∧
      (present 0x1410411420#40).rst = false ∧ (present 0x1410411420#40).instrValid = true ∧
      (moves [.edge (present 0x1410411420#40)]).pend = none ∧ decode (present 0x1410411420#40).instr = .ok addAll := by
  decide

theorem test_witness_WritebackIsDecidedByDestination :
    isJump addAll = false ∧ (s0 true).pend = none ∧ dest (.mov m16 (.direct 0)) = .direct 0 ∧
      dest addAll = .indirect 32 ∧ dest movFault = .immediate 1 := by decide

theorem test_witness_Op2FetchTick :
    Inv (pending (.op2Fetch addAll 7#8) []) ∧
      (pending (.op2Fetch addAll 7#8) []).pend = some (.op2Fetch addAll 7#8) :=
  ⟨⟨by decide, by decide, by decide⟩, by decide⟩

theorem test_witness_WritebackTick :
    isImmediate (dest addAll) = false ∧ dest (.jmp m16) = .direct 0 ∧ isImmediate (dest movFault) = true ∧
      isJump addAll = false ∧ Inv (pending (.writeback addAll 16#8) []) ∧
      (pending (.writeback addAll 16#8) []).pend = some (.writeback addAll 16#8) :=
  ⟨by decide, by decide, by decide, by decide, ⟨by decide, by decide, by decide⟩, by decide⟩

theorem test_witness_IdleEdgeChangesNothing :
    (moves [.edge PortIn.idle]).inputs = .edge PortIn.idle :: [] ∧ PortIn.idle.rst = false ∧
      PortIn.idle.instrValid = false ∧ (moves [.edge PortIn.idle]).pend = none ∧ (s0 true).inputs = [] ∧
      (s0 true).pend = none := by decide

theorem test_witness_BusyCoreIgnoresInstructionPort :
    (pending (.writeback addAll 16#8) []).pend = some (.writeback addAll 16#8) ∧
      (present 0x1400801001#40).rst = false ∧ PortIn.idle.rst = false := by decide

theorem test_witness_ResetEdgeClearsTheCore :
    (pending (.op1Fetch addAll) [.edge resetIn]).inputs = .edge resetIn :: [] ∧ resetIn.rst = true := by decide

theorem test_witness_DiagnosticOutputAtExceptionTick :
    (pending (.exception .immDest) [.edge PortIn.idle]).inputs = .edge PortIn.idle :: [] ∧ PortIn.idle.rst = false ∧
      (pending (.exception .immDest) [.edge PortIn.idle]).pend = some (.exception .immDest) ∧
      (pending (.exception .op2Single) [.edge PortIn.idle]).pend = some (.exception .op2Single) ∧
      ∃ t, step (pending (.exception .immDest) [.edge PortIn.idle]) = .next t :=
  ⟨by decide, by decide, by decide, by decide, _, rfl⟩

/-- The reset state and one where an edge retired the instruction are quiescent too. -/
theorem test_witness_ObservableBetweenInstructions :
    (pending (.op1Fetch addAll) []).pend = some (.op1Fetch addAll) ∧ State.reset.pend = none ∧
      (after (edge PortIn.idle (pending (.writeback addAll 16#8) []))).map State.pend = some none ∧
      ∃ t, exec addAll (s0 true) = .next t :=
  ⟨by decide, by decide, by decide, _, rfl⟩

/-! ## Hypotheses are met: the whole machine -/

theorem test_witness_ExecuteRunsToQuiescence :
    (s0 true).pend = none ∧ (pending (.op1Fetch addAll) []).pend = some (.op1Fetch addAll) ∧
      ∃ u, exec addAll (s0 true) = .next u :=
  ⟨by decide, by decide, _, rfl⟩

theorem test_witness_BusyCyclesAreCountedOnce :
    PortIn.idle.rst = false ∧ (∃ t, edge PortIn.idle (pending (.op1Fetch addAll) []) = .next t) ∧
      (∃ t, issue addAll (s0 true) = .next t) ∧ (∃ t, tick (.op1Fetch addAll) (s0 true) = .next t) ∧
      ∃ t, exec addAll (s0 true) = .next t :=
  ⟨by decide, ⟨_, rfl⟩, ⟨_, rfl⟩, ⟨_, rfl⟩, _, rfl⟩

theorem test_witness_StageCountersCountConsumedEvents :
    (∃ t, issue addAll (s0 true) = .next t) ∧ (∃ t, tick (.writeback addAll 16#8) (s0 true) = .next t) ∧
      ∃ t, exec addAll (s0 true) = .next t :=
  ⟨⟨_, rfl⟩, ⟨_, rfl⟩, _, rfl⟩

/-- The walks of rows 23, 51 and 64 of 95_test_vectors.md part 2.2, in both builds for the last. -/
theorem test_witness_WalkFollowsShape :
    (s0 true).pend = none ∧ walk addAll (s0 true) = [.op1Fetch, .op2Fetch, .writeback] ∧
      walk (.sub m16 m17 (.immediate 1)) (s0 true) = [.op1Fetch, .op2Fetch, .exception] ∧
      walk (.jmp (.direct 1)) (s0 true) = [.writeback] ∧ walk (.jmp (.direct 1)) (s0 false) = [] := by decide

theorem test_witness_CyclesFollowFormula :
    (∃ t, exec addAll (s0 true) = .next t) ∧ (∃ t, exec (.jmp (.direct 1)) (s0 false) = .next t) ∧
      cyclesOf true addAll = 4 ∧ cyclesOf false (.jmp (.direct 1)) = 1 :=
  ⟨⟨_, rfl⟩, ⟨_, rfl⟩, by decide, by decide⟩

theorem test_witness_CountersNeverInfluenceResults :
    SameButCounters (moves [.call addAll]) { moves [.call addAll] with cycles := 9 } ∧
      (∃ t, step (moves [.call addAll]) = .next t) ∧
      step (moves [.callWord 0x4000000000#40]) = .refused (.invalidWord .reservedOpcode) ∧
      step (pending (.writeback movFault 0#8) []) = .fault .logicFault :=
  ⟨⟨rfl, rfl, rfl, rfl, rfl⟩, ⟨_, rfl⟩, rfl, rfl⟩

theorem test_witness_ChargesDependOnlyOnShape :
    sameShape addAll (.sub (.indirect 0) (.indirect 1023) (.indirect 0)) = true ∧
      (s0 true).params = State.reset.params ∧ (∃ t, exec addAll (s0 true) = .next t) ∧
      ∃ v, exec (.sub (.indirect 0) (.indirect 1023) (.indirect 0)) State.reset = .next v :=
  ⟨by decide, by decide, ⟨_, rfl⟩, _, rfl⟩

theorem test_witness_EightBitDatapathIsExact :
    (Wide.mk (s0 true) (some (.op2Fetch addAll 300))).pend = some (.op2Fetch addAll 300) := by decide

theorem test_witness_WriteThenReadRoundTrip : isImmediate (.direct 0) = false ∧ isImmediate (.indirect 1023) = false := by
  decide

theorem test_witness_EveryStepKeepsInvariant :
    Inv (pending (.op1Fetch addAll) []) ∧ (∃ t, step (pending (.op1Fetch addAll) []) = .next t) ∧
      Inv (moves [.call addAll]) ∧ ∃ t, step (moves [.call addAll]) = .next t :=
  ⟨⟨by decide, by decide, by decide⟩, ⟨_, rfl⟩, ⟨by decide, by decide, by decide⟩, _, rfl⟩

theorem test_witness_LogicFaultIsNeverReached :
    isImmediate (dest movFault) = true ∧ Inv (pending (.writeback addAll 16#8) []) ∧
      (pending (.writeback addAll 16#8) []).pend = some (.writeback addAll 16#8) :=
  ⟨by decide, ⟨by decide, by decide, by decide⟩, by decide⟩

theorem test_witness_RefusalsAreHarnessBreaches :
    step (moves [.callWord 0x4000000000#40]) = .refused (.invalidWord .reservedOpcode) ∧
      step (moves [.edge (present 0x4000000000#40)]) = .refused (.invalidWord .reservedOpcode) ∧
      step (pending (.op1Fetch addAll) [.call addAll]) = .refused .notQuiescent :=
  ⟨rfl, rfl, rfl⟩

theorem test_witness_StepKeepsParametersAndHistory : ∃ t, step (moves [.call movFault]) = .next t := ⟨_, rfl⟩

theorem test_witness_IssuedInstructionRetires :
    pendOk (pending (.op1Fetch addAll) []) = true ∧ (pending (.op1Fetch addAll) []).inputs = [] := by decide

/-- The port-level trace of 95_test_vectors.md part 2.7: MOV #7 -> [0], then ADD [0], #1 -> r1. -/
theorem test_witness_PortLevelRunsEqualCallLevelRuns :
    ∃ (ps : List PortIn) (t : State), State.reset.pend = none ∧ (∀ p ∈ ps, p.rst = false) ∧
      run ps.length { State.reset with inputs := ps.map .edge } = .next t ∧ t.pend = none ∧
      acceptedWords ps State.reset = [0x0807000400#40, 0x1400801001#40] ∧ counters t = [4, 1, 0, 1, 0] :=
  ⟨[present 0x0807000400#40, present 0x1400801001#40, present 0x1400801001#40, PortIn.idle, PortIn.idle, PortIn.idle],
    _, rfl, by decide, rfl, by decide, by decide, by decide⟩

end Sys2Proof.Machine.Tests
end

section
/-! Writing and reading back: what an instruction stores is what `read` finds at its destination. -/

namespace Sys2Proof.Machine

/-- `exec` from a quiescent state always completes. -/
theorem exec_quiescent (i : Instr) {s : State} (hp : s.pend = none) : exec i s = .next (afterExecute i s) :=
  exec_eq_next.mpr ⟨hp, rfl⟩

/-- A register or cell reads back the low byte of the result the instruction stored there. -/
theorem read_dest_afterExecute {i : Instr} (hd : isImmediate (dest i) = false) (s : State) :
    read (dest i) (afterExecute i s) = (trunc8 (resultOf i s)).toNat := by
  rcases h : dest i with r | a | w
  · simp [h, regOf]
  · simp [h, cellOf]
  · simp [h] at hd

/-- A byte is stored and read back without loss. -/
theorem exec_reads_back_byte {i : Instr} {s : State} {v : Int} (hp : s.pend = none)
    (hd : isImmediate (dest i) = false) (hv : resultOf i s = v) (h0 : 0 ≤ v) (h256 : v < 256) :
    ∃ u, exec i s = .next u ∧ read (dest i) u = v := by
  refine ⟨afterExecute i s, exec_quiescent i hp, ?_⟩
  rw [read_dest_afterExecute hd, trunc8_toNat, hv, Int.emod_eq_of_lt h0 h256]

/-- Each kind of instruction finds in register `r` the byte it holds: MOV, ADD of zero, SUB of zero
and JMP carry it to where they write, SUB from 255 carries its complement. -/
theorem register_read_by_every_kind (r : Fin 16) {t : State} (hp : t.pend = none) {d : Source}
    (hd : isImmediate d = false) :
    (∃ u, exec (.mov (.direct r) d) t = .next u ∧ read d u = (t.reg r).toNat) ∧
      (∃ u, exec (.add (.direct r) (.immediate 0) d) t = .next u ∧ read d u = (t.reg r).toNat) ∧
      (∃ u, exec (.add (.immediate 0) (.direct r) d) t = .next u ∧ read d u = (t.reg r).toNat) ∧
      (∃ u, exec (.sub (.direct r) (.immediate 0) d) t = .next u ∧ read d u = (t.reg r).toNat) ∧
      (∃ u, exec (.sub (.immediate 255) (.direct r) d) t = .next u ∧ read d u = 255 - (t.reg r).toNat) ∧
      ∃ u, exec (.jmp (.direct r)) t = .next u ∧ read (.direct 0) u = (t.reg r).toNat := by
  have hlt : (t.reg r).toNat < 256 := (t.reg r).isLt
  have reads {i : Instr} {v : Int} (hi : isImmediate (dest i) = false) (hv : resultOf i t = v) (h0 : 0 ≤ v)
      (h256 : v < 256) := exec_reads_back_byte hp hi hv h0 h256
  refine ⟨?mov, ?addLeft, ?addRight, ?subLeft, ?subRight, ?jmp⟩
  case mov => exact reads (i := .mov _ d) hd rfl (by omega) (by omega)
  case addLeft => exact reads (i := .add _ _ d) hd (Int.add_zero _) (by omega) (by omega)
  case addRight => exact reads (i := .add _ _ d) hd (Int.zero_add _) (by omega) (by omega)
  case subLeft => exact reads (i := .sub _ _ d) hd (Int.sub_zero _) (by omega) (by omega)
  case subRight => exact reads (i := .sub _ _ d) hd rfl (by omega) (by omega)
  case jmp => exact reads (i := .jmp _) rfl rfl (by omega) (by omega)

/-- Settles O19: `exec` of the writer is `afterExecute`, whose register is the stored byte, and every
kind of reader then finds that byte (10_state.md R11). -/
theorem registersReadBackWhatWasWritten : Obligations.RegistersReadBackWhatWasWritten := by
  intro i r s hp hd
  refine ⟨afterExecute i s, exec_quiescent i hp, ?_, fun d hd' => ?_⟩
  · simp [hd, regOf]
  · exact register_read_by_every_kind r (by simpa using hp) hd'

end Sys2Proof.Machine
end

section
/-! `write` against `read`: the round trip, the frame of a write, and the logic fault a write to a
literal is, which the machine never reaches. -/

namespace Sys2Proof.Machine

/-! ## The round trip of a write -/

@[simp] theorem write_immediate (w v : Int) (s : State) : write (.immediate w) v s = .fault .logicFault := rfl

/-- A write to a register or a cell completes. -/
theorem write_completes {d : Source} (hd : isImmediate d = false) (v : Int) (s : State) :
    ∃ t, write d v s = .next t := by
  cases d with
  | direct r => exact ⟨_, rfl⟩
  | indirect a => exact ⟨_, rfl⟩
  | immediate w => simp at hd

/-- The destination holds the low byte; every other register and cell is as before (40_addressing.md R74). -/
theorem write_storesOnly {d : Source} {v : Int} {s t : State} (h : write d v s = .next t) :
    StoresOnly s t d (trunc8 v) := by
  obtain ⟨q, rfl, rfl⟩ | ⟨a, rfl, rfl⟩ := write_next h
  · exact ⟨fun r => by simp [regOf, eq_comm], fun b => by simp [cellOf]⟩
  · exact ⟨fun r => by simp [regOf], fun b => by simp [cellOf, eq_comm]⟩

/-- A write changes no field but the registers and the memory. -/
theorem write_frame {d : Source} {v : Int} {s t : State} (h : write d v s = .next t) :
    t = { s with x := t.x, mem := t.mem } := by
  obtain ⟨_, -, rfl⟩ | ⟨_, -, rfl⟩ := write_next h <;> rfl

/-- The destination reads back the byte stored there. -/
theorem read_of_storesOnly {d : Source} {b : Byte} {s t : State} (hd : isImmediate d = false)
    (h : StoresOnly s t d b) : read d t = b.toNat := by
  obtain ⟨hreg, hcell⟩ := h
  cases d with
  | direct r => simp [hreg, regOf]
  | indirect a => simp [hcell, cellOf]
  | immediate w => simp at hd

/-- Settles O44: a write to no literal completes, its two storage rules and its frame say what it
leaves, and the destination reads back the stored byte, which is the value modulo 256. -/
theorem writeThenReadRoundTrip : Obligations.WriteThenReadRoundTrip := by
  refine ⟨fun d v s hd => ?_, write_immediate⟩
  obtain ⟨t, ht⟩ := write_completes hd v s
  have hstores := write_storesOnly ht
  have hread := read_of_storesOnly hd hstores
  exact ⟨t, ht, hread.trans (trunc8_toNat v), hread, hstores, write_frame ht⟩

/-! ## The logic fault is never reached -/

/-- The writeback decision intercepts a literal destination (40_addressing.md R73). -/
theorem wbDecide_of_isImmediate {i : Instr} (hd : isImmediate (dest i) = true) (v : Int) (s : State) :
    wbDecide i v s = .next (raiseException .immDest s) := by
  rcases h : dest i with r | a | w
  · simp [h] at hd
  · simp [h] at hd
  · simp [wbDecide, h]

/-- A memory cell is no literal. -/
theorem isImmediate_of_isIndirect {d : Source} (h : isIndirect d = true) : isImmediate d = false := by
  cases d with
  | direct r => rfl
  | indirect a => rfl
  | immediate w => simp at h

/-- A Writeback event an instruction can produce stores into a cell or is a Jump's store into register 0
(10_state.md R21), so it holds no literal destination. -/
theorem isImmediate_dest_of_eventOk {jumpWb : Bool} {i : Instr} {v : Byte}
    (h : eventOk jumpWb (.writeback i v) = true) : isImmediate (dest i) = false := by
  cases i with
  | mov op1 res => exact isImmediate_of_isIndirect h
  | add op1 op2 res => exact isImmediate_of_isIndirect h
  | sub op1 op2 res => exact isImmediate_of_isIndirect h
  | jmp offset => rfl

/-- Under R21 the pending event is one an instruction can produce. -/
theorem eventOk_of_pendOk {s : State} {e : Event} (h : pendOk s = true) (hp : s.pend = some e) :
    eventOk s.params.jumpWbEvent e = true := by
  simpa [pendOk, hp] using h

/-- An instruction completes from a quiescent state and is refused from every other one. -/
theorem exec_ne_fault (i : Instr) (s : State) (f : Fault) : exec i s ≠ .fault f := by
  cases hp : s.pend with
  | none => simp [exec_quiescent i hp]
  | some e => simp [exec_eq_execute, execute_busy i hp]

/-- A clock edge faults only through its tick, and a tick of an event an instruction can produce
completes. -/
theorem edge_ne_fault (p : PortIn) {s : State} (h : pendOk s = true) (f : Fault) : edge p s ≠ .fault f := by
  obtain ⟨-, he⟩ | ⟨-, e, hp, he⟩ | ⟨-, -, -, he⟩ | ⟨-, hp, -, i, -, he⟩ | ⟨-, -, -, e, -, he⟩ := edge_cases p s
  · simp [he]
  · obtain ⟨t, ht, -⟩ := tick_total (eventOk_of_pendOk h hp)
    simp [he, ht]
  · simp [he]
  · obtain ⟨t, ht, -⟩ := issue_total i hp
    simp [he, ht]
  · simp [he]

/-- No move of the harness makes the core fault: a call executes or is refused, an edge ticks at most. -/
theorem deliver_ne_fault (m : HarnessMove) {s : State} (h : pendOk s = true) (f : Fault) :
    deliver m s ≠ .fault f := by
  obtain ⟨i, -, hd⟩ | ⟨w, e, -, -, hd⟩ | ⟨p, -, hd⟩ := deliver_cases m s
  · exact hd ▸ exec_ne_fault i s f
  · simp [hd]
  · exact hd ▸ edge_ne_fault p h f

/-- Taking a move off the list leaves the pending event as it is, so R21 holds where the move is delivered. -/
theorem step_ne_fault {s : State} (h : pendOk s = true) (f : Fault) : step s ≠ .fault f :=
  deliver_ne_fault (nextMove s.inputs).1 (s := { s with inputs := (nextMove s.inputs).2 }) h f

/-- Settles O47: the writeback decision raises the exception in place of the store, so under R21 no
Writeback event holds a literal and no move of the harness reaches the fault (60_exceptions.md R149). -/
theorem logicFaultIsNeverReached : Obligations.LogicFaultIsNeverReached := by
  refine ⟨write_immediate, ?intercepted, ?noneHeld, exec_ne_fault, ?steps⟩
  case intercepted => exact fun i v s hd => wbDecide_of_isImmediate hd v s
  case noneHeld => exact fun i v s hinv hp => isImmediate_dest_of_eventOk (eventOk_of_pendOk hinv.pendOk hp)
  case steps => exact fun s f hinv => step_ne_fault hinv.pendOk f

end Sys2Proof.Machine
end

section
/-! The stages of the event machine, one clock cycle at a time: what each branch of the issue cycle, of
the writeback decision and of the ticks does (41_pipeline.md R84 to R89). -/

namespace Sys2Proof.Machine

/-! ## The writeback decision, by destination -/

theorem wbDecide_of_direct {i : Instr} {r : Fin 16} (hd : dest i = .direct r) (v : Int) (s : State) :
    wbDecide i v s = write (.direct r) v s := by
  simp [wbDecide, hd]

theorem wbDecide_of_indirect {i : Instr} {a : Fin 1024} (hd : dest i = .indirect a) (v : Int) (s : State) :
    wbDecide i v s = .next (s.defer (.writeback i (trunc8 v))) := by
  simp [wbDecide, hd]

/-- Settles O24: one equation of the decision per destination; a register is stored by `write`, whose
frame leaves a quiescent core quiescent, and an instruction that faults has the fetch charges of
every other one. -/
theorem writebackIsDecidedByDestination : Obligations.WritebackIsDecidedByDestination := by
  intro i v s _ hp
  refine ⟨fun r hd => ?register, fun a hd => wbDecide_of_indirect hd v s, fun w hd => ⟨?raised, ?fetched⟩⟩
  case register =>
    have hw : wbDecide i v s = .next (s.setReg r (trunc8 v)) := wbDecide_of_direct hd v s
    exact ⟨_, hw, write_storesOnly rfl, ⟨hp, rfl, rfl, rfl⟩, (Combinational.setReg s r _).charged⟩
  case raised => exact wbDecide_of_isImmediate (by simp [hd]) v s
  case fetched => exact ⟨_, exec_quiescent i hp, afterExecute_fetch1 i s, afterExecute_fetch2 i s⟩

/-! ## The issue cycle -/

theorem issue_of_indirect {i : Instr} {s : State} (hp : s.pend = none) (hi : isIndirect (firstSrc i) = true) :
    issue i s = .next (s.chargeCycle.defer (.op1Fetch i)) := by
  simp [issue, hp, hi]

theorem issue_of_combinational {i : Instr} {s : State} (hp : s.pend = none)
    (hi : isIndirect (firstSrc i) = false) :
    issue i s = afterOp1 i (read (firstSrc i) s) s.chargeCycle := by
  simp [issue, hp, hi]

theorem issue_busy (i : Instr) {s : State} {e : Event} (hp : s.pend = some e) :
    issue i s = .refused .notQuiescent := by
  simp [issue, hp]

/-- Only a quiescent core issues. -/
theorem pend_eq_none_of_issue {i : Instr} {s t : State} (h : issue i s = .next t) : s.pend = none := by
  cases hp : s.pend with
  | none => rfl
  | some e => simp [issue_busy i hp] at h

/-- No pending event carries an instruction other than `i`: the instruction latch of 10_state.md R20. -/
def CarriesOnly (i : Instr) (t : State) : Prop := ∀ e j, t.pend = some e → carries e = some j → j = i

theorem carriesOnly_of_quiescent (i : Instr) {t : State} (hp : t.pend = none) : CarriesOnly i t := by
  simp [CarriesOnly, hp]

theorem carriesOnly_defer {i : Instr} {e : Event} (he : ∀ j, carries e = some j → j = i) (s : State) :
    CarriesOnly i (s.defer e) := by
  rintro _ j ⟨⟩
  exact he j

theorem carriesOnly_write {d : Source} {v : Int} (i : Instr) {s t : State} (hp : s.pend = none)
    (h : write d v s = .next t) : CarriesOnly i t := by
  obtain ⟨-, hpend⟩ := write_combinational h
  exact carriesOnly_of_quiescent i (hpend.trans hp)

theorem carriesOnly_wbDecide {i : Instr} {v : Int} {s t : State} (hp : s.pend = none)
    (h : wbDecide i v s = .next t) : CarriesOnly i t := by
  rcases hd : dest i with r | a | w
  · exact carriesOnly_write i hp (wbDecide_of_direct hd v s ▸ h)
  · rw [wbDecide_of_indirect hd] at h
    cases h
    exact carriesOnly_defer (by simp [carries]) s
  · rw [wbDecide_of_isImmediate (by simp [hd])] at h
    cases h
    exact carriesOnly_defer (by simp [carries]) s

theorem carriesOnly_resolveOp2 {i : Instr} {op2 : Source} {v : Int} {s t : State} (hp : s.pend = none)
    (h : resolveOp2 i op2 v s = .next t) : CarriesOnly i t := by
  unfold resolveOp2 at h
  split at h
  · cases h
    exact carriesOnly_defer (by simp [carries]) s
  · exact carriesOnly_wbDecide hp h

theorem carriesOnly_jumpWriteback {i : Instr} {v : Int} {s t : State} (hp : s.pend = none)
    (h : jumpWriteback i v s = .next t) : CarriesOnly i t := by
  unfold jumpWriteback at h
  split at h
  · cases h
    exact carriesOnly_defer (by simp [carries]) s
  · exact carriesOnly_write i hp h

theorem carriesOnly_afterOp1 {i : Instr} {v : Int} {s t : State} (hp : s.pend = none)
    (h : afterOp1 i v s = .next t) : CarriesOnly i t := by
  cases i with
  | mov op1 res => exact carriesOnly_wbDecide hp h
  | add op1 op2 res => exact carriesOnly_resolveOp2 hp h
  | sub op1 op2 res => exact carriesOnly_resolveOp2 hp h
  | jmp offset => exact carriesOnly_jumpWriteback hp h

theorem carriesOnly_issue {i : Instr} {s t : State} (h : issue i s = .next t) : CarriesOnly i t := by
  have hp := pend_eq_none_of_issue h
  cases hi : isIndirect (firstSrc i) with
  | true =>
    rw [issue_of_indirect hp hi] at h
    cases h
    exact carriesOnly_defer (by simp [carries]) _
  | false => exact carriesOnly_afterOp1 (s := s.chargeCycle) hp (issue_of_combinational hp hi ▸ h)

/-- An issue charges its own cycle and no stage. -/
theorem issue_charged {i : Instr} {s t : State} (h : issue i s = .next t) : Charged s t 1 0 0 0 0 := by
  obtain ⟨t', ht', hc, -⟩ := issue_total i (pend_eq_none_of_issue h)
  obtain rfl : t' = t := by simpa [ht'] using h
  exact hc.charged

/-- Settles O21: the two branches of the issue, its charge, and the instruction it latches. -/
theorem issueCycle : Obligations.IssueCycle := by
  refine ⟨fun i s hp => ⟨issue_of_indirect hp, issue_of_combinational hp, ?_⟩, fun i s e hp => issue_busy i hp⟩
  obtain ⟨t, ht, -⟩ := issue_total i hp
  exact ⟨t, ht, issue_charged ht, carriesOnly_issue ht⟩

/-! ## The ticks -/

/-- Settles O25: the operand is read from the same registers and memory the charges leave alone. -/
theorem op1FetchTick : Obligations.Op1FetchTick := by
  intro i s
  simp only [tick, handleOp1Fetch, read_consume]
  rfl

/-- Only a Binary has a second operand in memory. -/
theorem binary_of_isIndirect_secondSrc {i : Instr} (h : isIndirect (secondSrc i) = true) :
    ∃ op1 op2 res, i = .add op1 op2 res ∨ i = .sub op1 op2 res := by
  cases i with
  | mov op1 res => simp [secondSrc] at h
  | add op1 op2 res => exact ⟨op1, op2, res, .inl rfl⟩
  | sub op1 op2 res => exact ⟨op1, op2, res, .inr rfl⟩
  | jmp offset => simp [secondSrc] at h

/-- Settles O26: the handler's four arms; under R21 the event waits for an operand in memory, which an
instruction with one operand has not. -/
theorem op2FetchTick : Obligations.Op2FetchTick := by
  intro v s
  refine ⟨fun op1 op2 res => ?add, fun op1 op2 res => ?sub, fun _ _ => rfl, fun _ => rfl, fun i hinv hp => ?binary⟩
  case add =>
    simp only [tick, handleOp2Fetch, read_consume]
    rfl
  case sub =>
    simp only [tick, handleOp2Fetch, read_consume]
    rfl
  case binary => exact binary_of_isIndirect_secondSrc (eventOk_of_pendOk hinv.pendOk hp)

theorem tick_writeback (i : Instr) (v : Byte) (s : State) :
    tick (.writeback i v) s = write (dest i) v.toNat s.consume.countWriteback := rfl

/-- The store of a Writeback tick retires the instruction. -/
theorem tick_writeback_stores {i : Instr} {v : Byte} {s t : State} (h : tick (.writeback i v) s = .next t) :
    StoresOnly s t (dest i) v ∧ Quiet s t ∧ Charged s t 1 0 0 1 0 := by
  have hT := tick_next h
  rw [tick_writeback] at h
  obtain ⟨-, hpend⟩ := write_combinational h
  have hdiag : t.diagnostics = s.diagnostics := by simpa [Event.cause?] using hT.diagnostics
  refine ⟨?_, ⟨hpend, hT.params, hT.inputs, hdiag⟩, by simpa [Event.stage] using hT.charged⟩
  simpa [StoresOnly] using write_storesOnly h

/-- Settles O27: the tick is a `write` of the latch to the destination, which completes unless that is
a literal; R21 leaves a Unary or Binary only a cell. -/
theorem writebackTick : Obligations.WritebackTick := by
  intro i v s
  refine ⟨fun hd => ?stored, fun _ hi => hi ▸ rfl, fun hinv hp hj => ?cell, fun hd => ?literal⟩
  case stored =>
    obtain ⟨t, ht⟩ := write_completes hd v.toNat s.consume.countWriteback
    exact ⟨t, ht, tick_writeback_stores ht⟩
  case cell => simpa [eventOk, hj] using eventOk_of_pendOk hinv.pendOk hp
  case literal =>
    rcases hw : dest i with r | a | w
    · simp [hw] at hd
    · simp [hw] at hd
    · rw [tick_writeback, hw, write_immediate]

end Sys2Proof.Machine
end

section
/-! `execute` as the loop of 41_pipeline.md R91, and its cycles as issues and ticks counted one by one
(41_pipeline.md R93). -/

namespace Sys2Proof.Machine

/-! ## The loop of `execute` -/

/-- The ticks after an issue end in what `execute` leaves. -/
theorem ticksTo_of_exec {i : Instr} {s t u : State} (hi : issue i s = .next t) (h : exec i s = .next u) :
    TicksTo t u := by
  obtain ⟨hp, hu⟩ := exec_eq_next.mp h
  rw [exec_eq_execute, execute, hi, andThen_next] at h
  exact ticksTo_of_drain h (by simp [hu, hp])

/-- Settles O35: `execute` completes from a quiescent state, and the loop after the issue has only one
end, which its three ticks reach. -/
theorem executeRunsToQuiescence : Obligations.ExecuteRunsToQuiescence := by
  refine ⟨fun i s u => ⟨fun h => ?loop, fun ⟨t, hi, hu⟩ => ?unique⟩, fun i s hp => ?completes, fun i s e hp => ?busy⟩
  case loop =>
    obtain ⟨hp, -⟩ := exec_eq_next.mp h
    obtain ⟨t, hi, -⟩ := issue_total i hp
    exact ⟨t, hi, ticksTo_of_exec hi h⟩
  case unique =>
    have h := exec_quiescent i (pend_eq_none_of_issue hi)
    rw [h, ticksTo_unique hu (ticksTo_of_exec hi h)]
  case completes => exact ⟨_, exec_quiescent i hp, by simp [hp]⟩
  case busy => rw [exec_eq_execute, execute_busy i hp]

/-! ## The stages of a drain -/

@[simp] theorem stagesFrom_zero (s : State) : stagesFrom 0 s = [] := rfl

@[simp] theorem stagesFrom_quiescent (n : Nat) {s : State} (hp : s.pend = none) : stagesFrom n s = [] := by
  cases n <;> simp [stagesFrom, hp]

theorem stagesFrom_ticked (n : Nat) {s t : State} {e : Event} (hp : s.pend = some e) (ht : tick e s = .next t) :
    stagesFrom (n + 1) s = e.stage :: stagesFrom n t := by
  simp [stagesFrom, hp, ht]

theorem walk_of_issue {i : Instr} {s t : State} (h : issue i s = .next t) : walk i s = stagesFrom 4 t := by
  simp [walk, h]

/-- Charges add up. -/
theorem Charged.trans {s t u : State} {a b c d e a' b' c' d' e' : Nat} (h : Charged s t a b c d e)
    (h' : Charged t u a' b' c' d' e') : Charged s u (a + a') (b + b') (c + c') (d + d') (e + e') := by
  obtain ⟨h1, h2, h3, h4, h5⟩ := h
  obtain ⟨k1, k2, k3, k4, k5⟩ := h'
  exact ⟨by omega, by omega, by omega, by omega, by omega⟩

/-- A drain charges a cycle per stage it goes through, and the counter of each. -/
theorem charged_of_drain {n : Nat} {s u : State} (h : drain n s = .next u) :
    Charged s u (stagesFrom n s).length ((stagesFrom n s).count .op1Fetch) ((stagesFrom n s).count .op2Fetch)
      ((stagesFrom n s).count .writeback) ((stagesFrom n s).count .exception) := by
  induction n generalizing s with
  | zero =>
    obtain rfl : s = u := by simpa [drain] using h
    simp [Charged]
  | succ n ih =>
    cases hp : s.pend with
    | none =>
      obtain rfl : s = u := by simpa [hp] using h
      simp [Charged, hp]
    | some e =>
      rw [drain_pending n hp] at h
      obtain ⟨t, ht, h'⟩ := andThen_eq_next.mp h
      have hsum := (tick_next ht).charged.trans (ih h')
      simpa [stagesFrom_ticked n hp ht, List.count_cons, Nat.add_comm] using hsum

/-- A drain that ends quiescent stays so when it may tick once more. -/
theorem drain_succ_of_quiescent {n : Nat} {s u : State} (h : drain n s = .next u) (hu : u.pend = none) :
    drain (n + 1) s = .next u := by
  induction n generalizing s with
  | zero =>
    obtain rfl : s = u := by simpa [drain] using h
    exact drain_quiescent 1 hu
  | succ n ih =>
    cases hp : s.pend with
    | none => simpa [hp] using h
    | some e =>
      rw [drain_pending n hp] at h
      obtain ⟨t, ht, h'⟩ := andThen_eq_next.mp h
      rw [drain_pending (n + 1) hp, ht, andThen_next, ih h']

/-- An instruction charges its issue cycle and, for each stage of its walk, a cycle and that stage's
counter. -/
theorem exec_charged {i : Instr} {s u : State} (h : exec i s = .next u) :
    Charged s u (1 + (walk i s).length) ((walk i s).count .op1Fetch) ((walk i s).count .op2Fetch)
      ((walk i s).count .writeback) ((walk i s).count .exception) := by
  obtain ⟨hp, hu⟩ := exec_eq_next.mp h
  rw [exec_eq_execute, execute] at h
  obtain ⟨t, hi, hdrain⟩ := andThen_eq_next.mp h
  have hticks := charged_of_drain (drain_succ_of_quiescent hdrain (by simp [hu, hp]))
  simpa [walk_of_issue hi] using (issue_charged hi).trans hticks

/-- An edge without reset that completes is idle, one issue or one tick. -/
theorem edge_next {p : PortIn} {s t : State} (hr : p.rst = false) (h : edge p s = .next t) :
    t = s ∨ (∃ i, issue i s = .next t) ∨ ∃ e, s.pend = some e ∧ tick e s = .next t := by
  obtain ⟨hr', -⟩ | ⟨-, e, hp, he⟩ | ⟨-, -, -, he⟩ | ⟨-, -, -, i, -, he⟩ | ⟨-, -, -, e, -, he⟩ := edge_cases p s
  · simp [hr] at hr'
  · exact .inr (.inr ⟨e, hp, he ▸ h⟩)
  · exact .inl (by simpa [he] using h.symm)
  · exact .inr (.inl ⟨i, he ▸ h⟩)
  · simp [he] at h

/-- Settles O36: the kinds of busy edge, and the `cycles` part of what an issue, a tick and an
instruction charge. -/
theorem busyCyclesAreCountedOnce : Obligations.BusyCyclesAreCountedOnce := by
  refine ⟨fun p s t => edge_next, fun i s t h => ?issue, fun e s t h => ?tick, fun i s t h => ?exec⟩
  case issue =>
    obtain ⟨hcycles, -⟩ := issue_charged h
    exact hcycles
  case tick =>
    obtain ⟨hcycles, -⟩ := (tick_next h).charged
    exact hcycles
  case exec =>
    obtain ⟨hcycles, -⟩ := exec_charged h
    omega

end Sys2Proof.Machine
end

section
/-! After an exception: the fault changed nothing an instruction looks at, so the next one runs as it
would have before it (60_exceptions.md R154). -/

namespace Sys2Proof.Machine

/-- What an instruction charges, from its operands and the build alone. -/
theorem afterExecute_charged (i : Instr) (s : State) :
    Charged s (afterExecute i s) (cyclesOf s.params.jumpWbEvent i) (isIndirect (firstSrc i)).toNat
      (isIndirect (secondSrc i)).toNat (endsInWriteback s.params.jumpWbEvent i).toNat
      (isImmediate (dest i)).toNat :=
  ⟨afterExecute_cycles i s, afterExecute_fetch1 i s, afterExecute_fetch2 i s, afterExecute_writeback i s,
    afterExecute_exceptions i s⟩

/-- An instruction with a literal destination leaves its mark in the counters and the diagnostics only. -/
theorem sameButCounters_of_fault {i : Instr} (hd : isImmediate (dest i) = true) (s : State) :
    SameButCounters s (afterExecute i s) := by
  rcases h : dest i with r | a | w
  · simp [h] at hd
  · simp [h] at hd
  · simp [SameButCounters, afterExecute_x, afterExecute_mem, h]

/-- From two states that differ only in the counters and the diagnostics an instruction completes in two
such states. -/
theorem SameButCounters.afterExecute {s t : State} (h : SameButCounters s t) (hp : s.pend = none) (j : Instr) :
    SameButCounters (afterExecute j s) (afterExecute j t) := by
  have hrun := simulates_sameButCounters.execute h j
  rw [execute_quiescent j hp, execute_quiescent j ((simulates_sameButCounters.pend h).symm.trans hp)] at hrun
  cases hrun with
  | next h' => exact h'

/-- Settles O13: the fault leaves a state that differs in counters and diagnostics only, where the next
instruction completes alike and, the build being the same, charges the same. -/
theorem runContinuesUnaffectedByFault : Obligations.RunContinuesUnaffectedByFault := by
  intro i j s t hp hd hi
  obtain ⟨-, rfl⟩ := exec_eq_next.mp hi
  have hq : (afterExecute i s).pend = none := hp
  obtain ⟨hx, hmem, hpend, -, -⟩ := (sameButCounters_of_fault hd s).afterExecute hp j
  exact ⟨hq, _, _, exec_quiescent j hp, exec_quiescent j hq, hx.symm, hmem.symm, hpend.symm,
    _, _, _, _, _, afterExecute_charged j s, afterExecute_charged j (afterExecute i s)⟩

end Sys2Proof.Machine
end

section
/-! Back-to-back instructions: what one stores is what the next one's operands read (70_reset_and_hazards.md R174). -/

namespace Sys2Proof.Machine

/-- From a quiescent core an instruction completes in a quiescent core, where its destination reads back
the low byte of its result: the next instruction can start there at once. -/
theorem exec_stores_result {i : Instr} {s : State} (hp : s.pend = none) (hd : isImmediate (dest i) = false) :
    ∃ t, exec i s = .next t ∧ t.pend = none ∧ read (dest i) t = (trunc8 (resultOf i s)).toNat :=
  ⟨afterExecute i s, exec_quiescent i hp, hp, read_dest_afterExecute hd s⟩

/-- Settles O20: the first instruction completes in a quiescent core, so the second runs from the very
state where the result stands, and its own result is that of operands read there. -/
theorem nextInstructionSeesResult : Obligations.NextInstructionSeesResult := by
  intro i s hp hd
  obtain ⟨t, hexec, hquiet, hread⟩ := exec_stores_result hp hd
  refine ⟨t, hexec, hread, fun j hj => ?_⟩
  obtain ⟨u, hexec', -, hread'⟩ := exec_stores_result hquiet hj
  exact ⟨u, hexec', hread'⟩

end Sys2Proof.Machine
end

section
/-! The encoding (30_encoding.md section 6): a source field is accepted exactly when it encodes a
well-formed source, and a word is accepted exactly when its used fields are. -/

namespace Sys2Proof

/-! ## Encode, then decode -/

/-- Decoding an encoded instruction gives its normal form. -/
theorem decode_encode (i : Instr) : decode (encode i) = .ok i.normalise := by
  cases i with
  | mov op1 res => simp [encode, decode, decTwo, Instr.normalise]
  | add op1 op2 res => simp [encode, decode, decThree, Instr.normalise]
  | sub op1 op2 res => simp [encode, decode, decThree, Instr.normalise]
  | jmp offset => simp [encode, decode, Instr.normalise]

/-- A well-formed instruction is its own normal form (30_encoding.md R52). -/
theorem Instr.normalise_of_wellFormed {i : Instr} (h : i.wellFormed = true) : i.normalise = i := by
  cases i <;> simp only [Instr.wellFormed, Bool.and_eq_true] at h <;>
    simp [Instr.normalise, Source.normalise_of_wellFormed, h]

/-- Settles O1: the round trip gives the normal form, which a well-formed instruction is its own. -/
theorem encodedInstructionDecodesBack : Obligations.EncodedInstructionDecodesBack :=
  ⟨fun i h => by rw [decode_encode, Instr.normalise_of_wellFormed h], decode_encode⟩

/-! ## The source field, decoded and encoded again -/

/-- The bits of a source field, as a number. -/
theorem field_bits_toNat (f : Field) (lo n : Nat) : (f.extractLsb' lo n).toNat = f.toNat / 2 ^ lo % 2 ^ n := by
  rw [BitVec.extractLsb'_toNat, Nat.shiftRight_eq_div_pow]

theorem field_bits_eq_iff (f : Field) (lo n : Nat) (b : BitVec n) :
    f.extractLsb' lo n = b ↔ f.toNat / 2 ^ lo % 2 ^ n = b.toNat := by
  rw [BitVec.toNat_eq, field_bits_toNat]

/-- An accepted source field decodes to a well-formed source, whose encoding it is. -/
theorem wellFormed_and_encSrc_of_decSrc {f : Field} {a : Source} (h : decSrc f = .ok a) :
    a.wellFormed = true ∧ encSrc a = f := by
  have hf := f.isLt
  simp only [decSrc, field_bits_eq_iff, BitVec.toNat_ofNat] at h
  split_ifs at h with hdirect hzero hindirect himmediate hzero <;> cases h
  · refine ⟨rfl, BitVec.eq_of_toNat_eq ?_⟩
    rw [encSrc_direct_toNat, BitVec.val_toFin, field_bits_toNat]
    omega
  · refine ⟨rfl, BitVec.eq_of_toNat_eq ?_⟩
    rw [encSrc_indirect_toNat, BitVec.val_toFin, field_bits_toNat]
    omega
  · have hbyte := (f.extractLsb' 0 8).isLt
    refine ⟨by simp only [Source.wellFormed, Bool.and_eq_true, decide_eq_true_eq]; omega, BitVec.eq_of_toNat_eq ?_⟩
    rw [encSrc_immediate_toNat, Machine.trunc8_natCast, field_bits_toNat]
    omega

/-- A field decodes to `a` exactly when it is the encoding of `a`, a well-formed source. -/
theorem decSrc_eq_ok_iff {f : Field} {a : Source} :
    decSrc f = .ok a ↔ a.wellFormed = true ∧ encSrc a = f := by
  refine ⟨wellFormed_and_encSrc_of_decSrc, fun ⟨hwf, he⟩ => ?_⟩
  rw [← he, decSrc_encSrc, Source.normalise_of_wellFormed hwf]

end Sys2Proof
end

section
/-! Which words are instructions (30_encoding.md R57, R58): the decoder's answer read off the fields of
a word. -/

namespace Sys2Proof

open Machine (validField validWord ignoredFieldsZero)

/-! ## The fields of a word, as the statements number them -/

theorem opcField_eq_iff (w : Word) (o : BitVec 4) : opcField w = o ↔ w.toNat / 2 ^ 36 = o.toNat := by
  have hw := w.isLt
  rw [opcField, BitVec.toNat_eq, BitVec.extractLsb'_toNat, Nat.shiftRight_eq_div_pow]
  omega

theorem s1Field_eq_ofNat (w : Word) : s1Field w = BitVec.ofNat 12 (w.toNat / 2 ^ 24) := by
  rw [s1Field, BitVec.extractLsb', Nat.shiftRight_eq_div_pow]

theorem s2Field_eq_ofNat (w : Word) : s2Field w = BitVec.ofNat 12 (w.toNat / 2 ^ 12) := by
  rw [s2Field, BitVec.extractLsb', Nat.shiftRight_eq_div_pow]

theorem sdField_eq_ofNat (w : Word) : sdField w = BitVec.ofNat 12 w.toNat := by
  rw [sdField, BitVec.extractLsb', Nat.shiftRight_zero]

/-! ## The decoder, by opcode -/

theorem decTwo_eq_ok_iff {f g : Field} {k : Source → Source → Instr} {i : Instr} :
    decTwo f g k = .ok i ↔ ∃ a b, decSrc f = .ok a ∧ decSrc g = .ok b ∧ i = k a b := by
  unfold decTwo
  cases decSrc f <;> cases decSrc g <;> simp [eq_comm]

theorem decThree_eq_ok_iff {f g h : Field} {k : Source → Source → Source → Instr} {i : Instr} :
    decThree f g h k = .ok i ↔
      ∃ a b c, decSrc f = .ok a ∧ decSrc g = .ok b ∧ decSrc h = .ok c ∧ i = k a b c := by
  unfold decThree
  cases decSrc f <;> cases decSrc g <;> cases decSrc h <;> simp [eq_comm]

theorem decode_of_mov {w : Word} (h : opcField w = 0x0#4) : decode w = decTwo (s1Field w) (sdField w) .mov := by
  simp [decode, h]

theorem decode_of_add {w : Word} (h : opcField w = 0x1#4) :
    decode w = decThree (s1Field w) (s2Field w) (sdField w) .add := by
  simp [decode, h]

theorem decode_of_sub {w : Word} (h : opcField w = 0x2#4) :
    decode w = decThree (s1Field w) (s2Field w) (sdField w) .sub := by
  simp [decode, h]

theorem decode_of_jmp {w : Word} (h : opcField w = 0x3#4) : decode w = (decSrc (s1Field w)).map .jmp := by
  simp only [decode, h]
  cases decSrc (s1Field w) <;> rfl

/-- A word decodes to an instruction exactly when its opcode is that instruction's and its used fields
decode to the instruction's sources. -/
theorem decode_eq_ok_iff {w : Word} {i : Instr} :
    decode w = .ok i ↔
      (opcField w = 0x0#4 ∧ ∃ a d, decSrc (s1Field w) = .ok a ∧ decSrc (sdField w) = .ok d ∧ i = .mov a d) ∨
      (opcField w = 0x1#4 ∧ ∃ a b d, decSrc (s1Field w) = .ok a ∧ decSrc (s2Field w) = .ok b ∧
        decSrc (sdField w) = .ok d ∧ i = .add a b d) ∨
      (opcField w = 0x2#4 ∧ ∃ a b d, decSrc (s1Field w) = .ok a ∧ decSrc (s2Field w) = .ok b ∧
        decSrc (sdField w) = .ok d ∧ i = .sub a b d) ∨
      opcField w = 0x3#4 ∧ ∃ a, decSrc (s1Field w) = .ok a ∧ i = .jmp a := by
  by_cases h0 : opcField w = 0x0#4
  · simp [decode_of_mov h0, decTwo_eq_ok_iff, h0]
  by_cases h1 : opcField w = 0x1#4
  · simp [decode_of_add h1, decThree_eq_ok_iff, h1]
  by_cases h2 : opcField w = 0x2#4
  · simp [decode_of_sub h2, decThree_eq_ok_iff, h2]
  by_cases h3 : opcField w = 0x3#4
  · rw [decode_of_jmp h3]
    cases decSrc (s1Field w) <;> simp [Except.map, h3, eq_comm]
  · simp [decode, h0, h1, h2, h3]

/-! ## Decode, then encode -/

/-- The fields a MOV and a JMP ignore, of a word where they are zero (30_encoding.md R57). -/
theorem ignored_fields_eq_zero {w : Word} (h : ignoredFieldsZero w = true) :
    (opcField w = 0x0#4 → s2Field w = 0x000#12) ∧
      (opcField w = 0x3#4 → s2Field w = 0x000#12 ∧ sdField w = 0x000#12) := by
  simp only [ignoredFieldsZero, Bool.and_eq_true, Bool.or_eq_true, decide_eq_true_eq] at h
  simp only [opcField_eq_iff, s2Field_eq_ofNat, sdField_eq_ofNat]
  simp only [BitVec.toNat_eq, BitVec.toNat_ofNat]
  omega

/-- Settles O2: each used field is the encoding of the well-formed source it decodes to, and the word is
its fields put together. -/
theorem decodedWordEncodesBack : Obligations.DecodedWordEncodesBack := by
  intro w i h
  have hw := assembleWord_fields w
  simp only [decode_eq_ok_iff, decSrc_eq_ok_iff] at h
  obtain ⟨ho, a, d, ⟨wfa, ha⟩, ⟨wfd, hd⟩, rfl⟩ | ⟨ho, a, b, d, ⟨wfa, ha⟩, ⟨wfb, hb⟩, ⟨wfd, hd⟩, rfl⟩ |
    ⟨ho, a, b, d, ⟨wfa, ha⟩, ⟨wfb, hb⟩, ⟨wfd, hd⟩, rfl⟩ | ⟨ho, a, ⟨wfa, ha⟩, rfl⟩ := h
  · refine ⟨by simp [Instr.wellFormed, wfa, wfd], fun hz => ?_⟩
    obtain ⟨hs2, -⟩ := ignored_fields_eq_zero hz
    rwa [ho, hs2 ho, ← ha, ← hd] at hw
  · rw [ho, ← ha, ← hb, ← hd] at hw
    exact ⟨by simp [Instr.wellFormed, wfa, wfb, wfd], fun _ => hw⟩
  · rw [ho, ← ha, ← hb, ← hd] at hw
    exact ⟨by simp [Instr.wellFormed, wfa, wfb, wfd], fun _ => hw⟩
  · refine ⟨by simp [Instr.wellFormed, wfa], fun hz => ?_⟩
    obtain ⟨-, hs⟩ := ignored_fields_eq_zero hz
    obtain ⟨hs2, hsd⟩ := hs ho
    rwa [ho, hs2, hsd, ← ha] at hw

/-! ## The reserved encodings -/

/-- The three ranges of the field table are the encodings of the three kinds of source (30_encoding.md
R54). -/
theorem validField_iff {f : Field} : validField f = true ↔ ∃ a, decSrc f = .ok a := by
  simp only [decSrc_eq_ok_iff, validField, Bool.or_eq_true, Bool.and_eq_true, decide_eq_true_eq]
  constructor
  · rintro ((h | h) | h)
    · refine ⟨.direct ⟨f.toNat, by omega⟩, rfl, BitVec.eq_of_toNat_eq ?_⟩
      rw [encSrc_direct_toNat]
    · refine ⟨.indirect ⟨f.toNat - 0x400, by omega⟩, rfl, BitVec.eq_of_toNat_eq ?_⟩
      rw [encSrc_indirect_toNat]
      exact Nat.add_sub_of_le h.1
    · refine ⟨.immediate (f.toNat - 0x800 : Nat), ?_, BitVec.eq_of_toNat_eq ?_⟩
      · simp only [Source.wellFormed, Bool.and_eq_true, decide_eq_true_eq]
        omega
      · have hv := Machine.trunc8_toNat (f.toNat - 0x800 : Nat)
        rw [encSrc_immediate_toNat]
        omega
  · rintro ⟨a, -, rfl⟩
    cases a with
    | direct r =>
      rw [encSrc_direct_toNat]
      omega
    | indirect a =>
      rw [encSrc_indirect_toNat]
      omega
    | immediate v =>
      have hv := (trunc8 v).isLt
      rw [encSrc_immediate_toNat]
      omega

/-- The valid words are those that decode to an instruction (30_encoding.md R58). -/
theorem validWord_iff {w : Word} : validWord w = true ↔ ∃ i, decode w = .ok i := by
  simp only [validWord, Bool.or_eq_true, Bool.and_eq_true, decide_eq_true_eq, ← s1Field_eq_ofNat,
    ← s2Field_eq_ofNat, ← sdField_eq_ofNat, validField_iff, decode_eq_ok_iff, opcField_eq_iff]
  simp [exists_or, or_assoc, and_assoc]

theorem validWord_eq_false_iff {w : Word} : validWord w = false ↔ ∃ e, decode w = .error e := by
  rw [← Bool.not_eq_true, validWord_iff]
  cases decode w <;> simp

/-- Settles O3: the refused words are the invalid ones, a call of one is refused, and so is an accepting
edge that presents one. -/
theorem invalidWordsAreRefused : Obligations.InvalidWordsAreRefused := by
  refine ⟨fun w => validWord_eq_false_iff.symm, fun s w rest hin hw => ?call, fun s p rest hin hacc hw => ?edge⟩
  case call =>
    obtain ⟨e, he⟩ := validWord_eq_false_iff.mp hw
    exact ⟨e, by simp [Machine.step_cons hin, Machine.deliver, he]⟩
  case edge =>
    obtain ⟨e, he⟩ := validWord_eq_false_iff.mp hw
    obtain ⟨⟨hrst, hpend⟩, hvalid⟩ : (p.rst = false ∧ s.pend = none) ∧ p.instrValid = true := by
      simpa [Machine.accepts, Machine.ready] using hacc
    exact ⟨e, by simp [Machine.step_cons hin, Machine.deliver, Machine.edge, hrst, hpend, hvalid, he]⟩

/-! ## The ignored fields -/

/-- Settles O4: the decoder of a MOV looks at S1 and SD, that of a JMP at S1. -/
theorem ignoredFieldsDoNotMatter : Obligations.IgnoredFieldsDoNotMatter := by
  refine ⟨fun w w' ho h1 hd => ?mov, fun w w' ho h1 => ?jmp⟩
  case mov =>
    have ho' : w'.toNat / 2 ^ 36 = 0 := by omega
    have hsd : sdField w = sdField w' := by
      rw [sdField_eq_ofNat, sdField_eq_ofNat]
      exact BitVec.eq_of_toNat_eq hd
    rw [decode_of_mov ((opcField_eq_iff w _).mpr ho), decode_of_mov ((opcField_eq_iff w' _).mpr ho'),
      s1Field_eq_ofNat, s1Field_eq_ofNat, h1, hsd]
  case jmp =>
    have ho' : w'.toNat / 2 ^ 36 = 3 := by omega
    rw [decode_of_jmp ((opcField_eq_iff w _).mpr ho), decode_of_jmp ((opcField_eq_iff w' _).mpr ho'),
      s1Field_eq_ofNat, s1Field_eq_ofNat, h1]

/-- Settles O5: the decoder run on each word. -/
theorem specWordsDecode : Obligations.SpecWordsDecode := by
  unfold Obligations.SpecWordsDecode
  decide

end Sys2Proof
end

section
/-! The invariant (10_state.md R21): it holds at reset and every step keeps it. -/

namespace Sys2Proof.Machine

/-- The cycles of an instruction are its issue and one per stage it visits (41_pipeline.md R97). -/
theorem cyclesOf_eq_stages (jumpWb : Bool) (i : Instr) :
    cyclesOf jumpWb i = 1 + (isIndirect (firstSrc i)).toNat + (isIndirect (secondSrc i)).toNat +
      ((endsInWriteback jumpWb i).toNat + (isImmediate (dest i)).toNat) := by
  cases i <;> rfl

theorem pendOk_of_quiescent {s : State} (hp : s.pend = none) : pendOk s = true := by
  simp [pendOk, hp]

/-- Another list of waiting moves does not touch the invariant. -/
theorem Inv.withInputs {s : State} (h : Inv s) (l : List HarnessMove) : Inv { s with inputs := l } :=
  ⟨h.memWf, h.pendOk, h.visits⟩

/-- Charges of at most one stage visit per cycle keep the visits within the cycles. -/
theorem visits_of_charged {s t : State} {c f1 f2 wb ex : Nat}
    (hs : s.fetch1 + s.fetch2 + s.writeback + s.exceptions ≤ s.cycles) (h : Charged s t c f1 f2 wb ex)
    (hle : f1 + f2 + wb + ex ≤ c) : t.fetch1 + t.fetch2 + t.writeback + t.exceptions ≤ t.cycles := by
  obtain ⟨h1, h2, h3, h4, h5⟩ := h
  omega

theorem Inv.afterExecute {s : State} (h : Inv s) (hp : s.pend = none) (i : Instr) : Inv (afterExecute i s) where
  memWf := afterExecute_memWf i h.memWf
  pendOk := pendOk_of_quiescent hp
  visits := visits_of_charged h.visits (afterExecute_charged i s) (by rw [cyclesOf_eq_stages]; omega)

theorem Inv.hardwareReset (s : State) : Inv s.hardwareReset :=
  ⟨rfl, rfl, Nat.le_refl 0⟩

/-- A tick visits the one stage of its event. -/
theorem Inv.tick {s t : State} {e : Event} (h : Inv s) (hp : s.pend = some e) (ht : tick e s = .next t) :
    Inv t := by
  have hT := tick_next ht
  refine ⟨hT.memWf h.memWf, hT.pendOk (eventOk_of_pendOk h.pendOk hp), visits_of_charged h.visits hT.charged ?_⟩
  cases e <;> simp [Event.stage]

/-- An issue visits no stage. -/
theorem Inv.issue {s t : State} {i : Instr} (h : Inv s) (hi : issue i s = .next t) : Inv t := by
  obtain ⟨t', ht', hc, hok⟩ := issue_total i (pend_eq_none_of_issue hi)
  obtain rfl : t' = t := by simpa [ht'] using hi
  exact ⟨hc.memWf h.memWf, hok, visits_of_charged h.visits (issue_charged hi) (Nat.zero_le 1)⟩

/-- Settles O45: whichever of its five kinds a step is, an instruction executed, a reset, a tick, an idle
edge or an issue, it keeps the invariant. -/
theorem everyStepKeepsInvariant : Obligations.EveryStepKeepsInvariant := by
  intro s t hinv hstep
  have hin := hinv.withInputs s.inputs.tail
  obtain ⟨i, hp, rfl⟩ | rfl | ⟨e, hp, ht⟩ | rfl | ⟨i, -, ht⟩ := step_next hstep
  · exact hin.afterExecute hp i
  · exact .hardwareReset _
  · exact hin.tick hp ht
  · exact hin
  · exact hin.issue ht

/-- Settles O46: the reset state has no memory entry, no pending event and zero counters. -/
theorem resetStateMeetsInvariant : Obligations.ResetStateMeetsInvariant :=
  ⟨Memory.wf_reset, rfl, Nat.le_refl 0⟩

end Sys2Proof.Machine
end

section
/-! The closed forms of the instructions (42_unary.md, 43_binary.md, 44_jump.md, 60_exceptions.md): each
is `afterExecute` of that instruction, read off field by field. -/

namespace Sys2Proof.Machine

/-! ## Stores -/

/-- An instruction with no literal destination stores the low byte of its result there and nothing else,
and emits nothing. -/
theorem exec_stores {i : Instr} {s : State} (hp : s.pend = none) (hd : isImmediate (dest i) = false) :
    ∃ t, exec i s = .next t ∧ StoresOnly s t (dest i) (trunc8 (resultOf i s)) ∧ Quiet s t ∧
      Charged s t (cyclesOf s.params.jumpWbEvent i) (isIndirect (firstSrc i)).toNat
        (isIndirect (secondSrc i)).toNat (endsInWriteback s.params.jumpWbEvent i).toNat 0 := by
  refine ⟨_, exec_quiescent i hp, ⟨afterExecute_reg i s, afterExecute_cell i s⟩, ⟨hp, rfl, rfl, by simp [hd]⟩, ?_⟩
  simpa [hd] using afterExecute_charged i s

/-- The cycles of a Unary or Binary that stores (41_pipeline.md R97). -/
theorem cyclesOf_of_stores {i : Instr} (hj : isJump i = false) (hd : isImmediate (dest i) = false)
    (jumpWb : Bool) :
    cyclesOf jumpWb i =
      1 + (isIndirect (firstSrc i)).toNat + (isIndirect (secondSrc i)).toNat + (isIndirect (dest i)).toNat := by
  simp [cyclesOf, hj, hd]

/-- Settles O8: `exec_stores` for a MOV. -/
theorem movStoresOperand : Obligations.MovStoresOperand := by
  intro op1 res s hp hd
  have h := exec_stores (i := .mov op1 res) hp hd
  rwa [cyclesOf_of_stores (i := .mov op1 res) rfl hd] at h

/-- Settles O9: `exec_stores` for an ADD. -/
theorem addStoresSum : Obligations.AddStoresSum := by
  intro op1 op2 res s hp hd
  have h := exec_stores (i := .add op1 op2 res) hp hd
  rwa [cyclesOf_of_stores (i := .add op1 op2 res) rfl hd] at h

/-- Settles O10: `exec_stores` for a SUB. -/
theorem subStoresDifference : Obligations.SubStoresDifference := by
  intro op1 op2 res s hp hd
  have h := exec_stores (i := .sub op1 op2 res) hp hd
  rwa [cyclesOf_of_stores (i := .sub op1 op2 res) rfl hd] at h

/-- Settles O11: `exec_stores` for a JMP, whose destination is register 0. -/
theorem jmpWritesRegisterZero : Obligations.JmpWritesRegisterZero :=
  fun offset _ hp => exec_stores (i := .jmp offset) hp rfl

/-! ## Exceptions -/

/-- An instruction that faults ends in no Writeback event. -/
theorem endsInWriteback_of_isImmediate_dest {i : Instr} (hd : isImmediate (dest i) = true) (jumpWb : Bool) :
    endsInWriteback jumpWb i = false := by
  have hwb : isIndirect (dest i) = false := by
    rw [← Bool.not_eq_true]
    exact fun hind => by simp [isImmediate_of_isIndirect hind] at hd
  cases i with
  | jmp offset => cases hd
  | mov op1 res => exact hwb
  | add op1 op2 res => exact hwb
  | sub op1 op2 res => exact hwb

/-- Settles O12: the registers and the memory are the old ones, and the exception takes the place of the
Writeback event. -/
theorem literalDestinationTakesException : Obligations.LiteralDestinationTakesException := by
  intro i s hp hd
  obtain ⟨hx, hmem, -⟩ := sameButCounters_of_fault hd s
  obtain ⟨h1, h2, h3, h4, h5⟩ := afterExecute_charged i s
  simp only [cyclesOf_eq_stages, endsInWriteback_of_isImmediate_dest hd, hd, Bool.toNat_false, Bool.toNat_true]
    at h1 h4 h5
  exact ⟨_, exec_quiescent i hp, ⟨fun r => by simp only [State.reg, hx], fun a => by simp only [State.cell, hmem]⟩,
    hp, rfl, rfl, by simp [hd], by omega, h2, h3, h4, h5⟩

/-! ## A MOV onto itself -/

/-- A cell written with what it holds leaves a canonical memory the same list. -/
theorem Memory.write_read_self {m : Memory} (hm : Memory.wf m = true) (a : Fin 1024) :
    Memory.write m a.val (Memory.read m a.val) = m := by
  refine Memory.eq_of_read_eq (Memory.wf_write hm a _) hm fun b => ?_
  rw [Memory.read_write]
  split
  case isTrue h => rw [h]
  case isFalse => rfl

/-- Settles O14: the byte stored is the one that stands there. -/
theorem movOntoItselfOnlyCounts : Obligations.MovOntoItselfOnlyCounts := by
  refine ⟨fun r s hp => ?register, fun a s hp hm => ?cell⟩
  case register =>
    have hv : trunc8 (resultOf (.mov (.direct r) (.direct r)) s) = s.x[r.val] := trunc8_natCast _
    rw [exec_quiescent _ hp]
    simp [State.ext_iff, afterExecute_x, afterExecute_mem, hv, cyclesOf, endsInWriteback, isJump, dest, firstSrc,
      secondSrc]
  case cell =>
    have hv : trunc8 (resultOf (.mov (.indirect a) (.indirect a)) s) = Memory.read s.mem a.val := trunc8_natCast _
    rw [exec_quiescent _ hp]
    simp [State.ext_iff, afterExecute_x, afterExecute_mem, hv, Memory.write_read_self hm, cyclesOf,
      endsInWriteback, isJump, dest, firstSrc, secondSrc]

/-! ## Arithmetic laws -/

/-- Settles O15: the sum is the same and so is the number of operands in memory. -/
theorem addCommutesInValueNotInFetches : Obligations.AddCommutesInValueNotInFetches := by
  intro a b d s hp
  have hsum : resultOf (.add a b d) s = resultOf (.add b a d) s := Int.add_comm _ _
  refine ⟨_, _, exec_quiescent (.add a b d) hp, exec_quiescent (.add b a d) hp, ?_, ?_, ?_, rfl, rfl, ?_, ?_⟩
  · simp [afterExecute_x, hsum, dest]
  · simp [afterExecute_mem, hsum, dest]
  · simp only [afterExecute_cycles, cyclesOf, firstSrc, secondSrc, isJump, dest, Bool.false_eq_true, if_false]
    omega
  · simp only [afterExecute_fetch1, afterExecute_fetch2, firstSrc, secondSrc]
    omega
  · simp only [afterExecute_fetch1, afterExecute_fetch2, firstSrc, secondSrc]
    omega

/-- Settles O16: the stored byte is the result modulo 256. -/
theorem sumsAndDifferencesWrap : Obligations.SumsAndDifferencesWrap := by
  intro op1 op2 r s a b hp ha hb
  have stored : ∀ i, dest i = .direct r →
      ∃ t, exec i s = .next t ∧ ((t.reg r).toNat : Int) = resultOf i s % 256 := fun i hd =>
    ⟨_, exec_quiescent i hp, by simp [hd, regOf, trunc8_toNat]⟩
  have halt := a.isLt
  have hblt := b.isLt
  obtain ⟨t, ht, hsum⟩ := stored (.add op1 op2 (.direct r)) rfl
  obtain ⟨u, hu, hdiff⟩ := stored (.sub op1 op2 (.direct r)) rfl
  simp only [resultOf, compute, firstSrc, secondSrc, ha, hb] at hsum hdiff
  refine ⟨⟨t, ht, by omega⟩, u, hu, ?_⟩
  split <;> omega

/-! ## JMP against MOV -/

/-- Settles O17: the two differ in nothing but the Writeback event of this build. -/
theorem jmpEqualsMovToRegisterZero : Obligations.JmpEqualsMovToRegisterZero := by
  intro src s hp
  refine ⟨_, exec_quiescent _ hp, ?_⟩
  rw [exec_quiescent _ hp]
  simp [State.ext_iff, afterExecute_x, afterExecute_mem, resultOf, compute, cyclesOf, endsInWriteback, isJump,
    dest, firstSrc, secondSrc, Nat.add_assoc]

/-! ## Bounds -/

/-- No instruction takes more than 4 cycles, and every one takes its issue cycle (41_pipeline.md R92). -/
theorem cyclesOf_bounds (jumpWb : Bool) (i : Instr) : 1 ≤ cyclesOf jumpWb i ∧ cyclesOf jumpWb i ≤ 4 := by
  have h1 := Bool.toNat_le (isIndirect (firstSrc i))
  have h2 := Bool.toNat_le (isIndirect (secondSrc i))
  have h3 : (endsInWriteback jumpWb i).toNat + (isImmediate (dest i)).toNat ≤ 1 := by
    cases hd : isImmediate (dest i) with
    | true => simp [endsInWriteback_of_isImmediate_dest hd]
    | false => exact Bool.toNat_le _
  rw [cyclesOf_eq_stages]
  omega

/-- Settles O39: what `afterExecute` charges is the formula, whose bounds are `cyclesOf_bounds`. -/
theorem cyclesFollowFormula : Obligations.CyclesFollowFormula := by
  intro i s t h
  obtain ⟨-, rfl⟩ := exec_eq_next.mp h
  exact ⟨afterExecute_cycles i s, cyclesOf_bounds _ i⟩

/-- Settles O18: the charges of an ADD and of a SUB, and the bound on the formula. -/
theorem allMemoryBinaryTakesFourCycles : Obligations.AllMemoryBinaryTakesFourCycles := by
  intro a b c s hp
  refine ⟨⟨_, exec_quiescent _ hp, afterExecute_charged _ s⟩, ⟨_, exec_quiescent _ hp, afterExecute_charged _ s⟩,
    fun j u hu => ?_⟩
  obtain ⟨hcycles, -, hle⟩ := cyclesFollowFormula j s u hu
  omega

end Sys2Proof.Machine
end

section
/-! Calls, clock edges and what the harness sees of them (50_interface.md, 70_reset_and_hazards.md). -/

namespace Sys2Proof.Machine

/-! ## Calls -/

/-- A word that decodes to an instruction is delivered as a call of it. -/
theorem deliver_callWord {w : Word} {i : Instr} (h : decode w = .ok i) (s : State) :
    deliver (.callWord w) s = exec i s := by
  simp [deliver, h]

theorem decode_of_decodeTableWord {n w : Nat} {i : Instr} (h : decodeTableWord n w = some i) :
    decode (tableWord n w) = .ok i := by
  unfold decodeTableWord at h
  cases hd : decode (tableWord n w) with
  | error e => simp [hd, Except.toOption] at h
  | ok j => simpa [hd, Except.toOption] using h

/-- Settles O7: the step takes the call off the list and delivers it. -/
theorem stepRunsCalledInstruction : Obligations.StepRunsCalledInstruction := by
  refine ⟨fun s i rest hin => step_cons hin, fun s w i rest hin hw => ?word, fun s w i hw => ?placed⟩
  case word => rw [step_cons hin, deliver_callWord hw]
  case placed =>
    have hin : (s.withFetchWord 40 w).inputs = .callWord (tableWord 40 w) :: s.inputs := rfl
    rw [step_cons hin, deliver_callWord (decode_of_decodeTableWord hw)]
    rfl

/-! ## Edges -/

theorem edge_of_reset {p : PortIn} (hr : p.rst = true) (s : State) : edge p s = .next s.hardwareReset := by
  simp [edge, hr]

theorem edge_busy {p : PortIn} {s : State} {e : Event} (hr : p.rst = false) (hp : s.pend = some e) :
    edge p s = tick e s := by
  simp [edge, hr, hp]

theorem edge_idle {p : PortIn} {s : State} (hr : p.rst = false) (hv : p.instrValid = false) (hp : s.pend = none) :
    edge p s = .next s := by
  simp [edge, hr, hv, hp]

theorem edge_accepting {p : PortIn} {s : State} {i : Instr} (hr : p.rst = false) (hv : p.instrValid = true)
    (hp : s.pend = none) (hd : decode p.instr = .ok i) : edge p s = issue i s := by
  simp [edge, hr, hv, hp, hd]

/-- Settles O22: `edge_accepting` on the edge the step takes off the list. -/
theorem acceptingEdgeIssues : Obligations.AcceptingEdgeIssues := by
  intro s p i rest hin hr hv hp hd
  rw [step_cons hin]
  exact edge_accepting hr hv hp hd

/-- Settles O30: the tick does not look at the inputs. -/
theorem busyCoreIgnoresInstructionPort : Obligations.BusyCoreIgnoresInstructionPort := by
  intro s e p q rest hp hrp hrq
  have ticks : ∀ p : PortIn, p.rst = false →
      step { s with inputs := .edge p :: rest } = tick e { s with inputs := rest } := fun p hr => by
    rw [step_cons rfl]
    exact edge_busy hr hp
  exact ⟨ticks p hrp, (ticks p hrp).trans (ticks q hrq).symm⟩

/-- Settles O29: an idle edge leaves the state, and so does any number of steps with no move waiting. -/
theorem idleEdgeChangesNothing : Obligations.IdleEdgeChangesNothing := by
  refine ⟨fun s p rest hin hr hv hp => ?edge, fun k s hin hp => ?run⟩
  case edge =>
    rw [step_cons hin]
    exact edge_idle hr hv hp
  case run =>
    induction k with
    | zero => rfl
    | succ k ih => rw [run, step_nil hin, edge_idle rfl rfl hp, andThen_next, ih]

/-! ## Reset -/

@[simp] theorem State.hardwareReset_reg (s : State) (r : Fin 16) : s.hardwareReset.reg r = 0#8 := by
  simp [State.reg, resetByte]

@[simp] theorem State.hardwareReset_cell (s : State) (a : Nat) : s.hardwareReset.cell a = 0#8 := rfl

/-- Settles O31: whatever is pending, the edge is `hardwareReset`. -/
theorem resetEdgeClearsTheCore : Obligations.ResetEdgeClearsTheCore := by
  intro s p rest hin hr
  have hstep : step s = .next ({ s with inputs := rest } : State).hardwareReset := by
    rw [step_cons hin]
    exact edge_of_reset hr _
  exact ⟨_, hstep, State.hardwareReset_reg _, State.hardwareReset_cell _, rfl, rfl, rfl, rfl, rfl, rfl, rfl, rfl,
    rfl, rfl⟩

/-- Settles O32: the reset state is what a reset edge makes of itself. -/
theorem resetStateIsAllZero : Obligations.ResetStateIsAllZero :=
  ⟨State.hardwareReset_reg State.reset, State.hardwareReset_cell State.reset, rfl, rfl, rfl, rfl, rfl, rfl, rfl⟩

/-! ## The diagnostic output -/

/-- Without reset the diagnostic output carries the cause of the pending exception, if there is one. -/
theorem diagnostic_eq_cause {p : PortIn} (hr : p.rst = false) (s : State) :
    diagnostic p s = s.pend.bind Event.cause? := by
  rcases hp : s.pend with _ | (_ | _ | _ | _) <;> simp [diagnostic, hr, hp, Event.cause?]

theorem cause?_eq_some_iff {e : Event} {c : Cause} : e.cause? = some c ↔ e = .exception c := by
  cases e <;> simp [Event.cause?]

/-- What an edge adds to the record of diagnostics is what the diagnostic output carries. -/
theorem edge_diagnostics {p : PortIn} {s t : State} (h : edge p s = .next t) :
    t.diagnostics = s.diagnostics ++ (diagnostic p s).toList := by
  obtain ⟨hr, he⟩ | ⟨hr, e, hp, he⟩ | ⟨hr, hp, -, he⟩ | ⟨hr, hp, -, i, -, he⟩ | ⟨-, -, -, e, -, he⟩ :=
    edge_cases p s <;> rw [he] at h
  · cases h
    simp [diagnostic, hr]
  · simpa [diagnostic_eq_cause hr, hp] using (tick_next h).diagnostics
  · cases h
    simp [diagnostic_eq_cause hr, hp]
  · obtain ⟨t', ht', hc, -⟩ := issue_total i hp
    obtain rfl : t' = t := by simpa [ht'] using h
    simpa [diagnostic_eq_cause hr, hp] using hc.diagnostics
  · cases h

/-- Settles O33: the output is the pending exception's cause, which the tick of the same edge records. -/
theorem diagnosticOutputAtExceptionTick : Obligations.DiagnosticOutputAtExceptionTick := by
  intro s p rest hin
  refine ⟨?valid, fun hr hp => ?immDest, fun hr hp => ?op2Single, fun t ht => ?recorded⟩
  case valid =>
    cases hr : p.rst with
    | true => simp [diagValid, diagnostic, hr]
    | false =>
      simp [diagValid, diagnostic_eq_cause hr, Option.isSome_iff_exists, Option.bind_eq_some_iff, cause?_eq_some_iff]
  case immDest => simp [diagCause, diagnostic_eq_cause hr, hp, Event.cause?, Cause.code]
  case op2Single => simp [diagCause, diagnostic_eq_cause hr, hp, Event.cause?, Cause.code]
  case recorded =>
    rw [step_cons hin] at ht
    exact edge_diagnostics (s := { s with inputs := rest }) ht

/-! ## Observation -/

theorem observe_quiescent {s : State} (hp : s.pend = none) :
    observe s = some ⟨s.x, s.mem, s.cycles, s.fetch1, s.fetch2, s.writeback, s.exceptions⟩ := by
  simp [observe, hp]

/-- Settles O34: an instruction completes only from and into a quiescent state. -/
theorem observableBetweenInstructions : Obligations.ObservableBetweenInstructions := by
  refine ⟨fun s e hp => by simp [observe, hp], fun s => observe_quiescent, fun i s t h => ?_⟩
  obtain ⟨hp, rfl⟩ := exec_eq_next.mp h
  exact observe_quiescent hp

/-! ## Fixed facts of one stage -/

/-- Settles O23: the branches of `afterOp1` and of the two stages it hands on to. -/
theorem firstOperandIsDispatchedByKind : Obligations.FirstOperandIsDispatchedByKind :=
  fun _ _ => ⟨fun _ _ => rfl, fun _ _ _ => rfl, fun _ _ _ => rfl, fun _ => rfl⟩

/-- Settles O28: the handler is `takeException` on the consumed event's state. -/
theorem exceptionTick : Obligations.ExceptionTick :=
  fun _ _ => rfl

/-- Settles O43: `trunc8_toNat`, and three values. -/
theorem truncationIsFloorModulo : Obligations.TruncationIsFloorModulo :=
  ⟨trunc8_toNat, by decide, by decide, by decide⟩

end Sys2Proof.Machine
end

section
/-! The walk of an instruction through its stages (41_pipeline.md R95, R96), and its end: every event
retires within three ticks (R92). -/

namespace Sys2Proof.Machine

/-- An Op2Fetch event that waits for an operand in memory belongs to a Binary, and its tick goes on to
the writeback decision (41_pipeline.md R88). -/
theorem tick_op2Fetch_of_isIndirect {i : Instr} (h : isIndirect (secondSrc i) = true) (b : Byte) (s : State) :
    tick (.op2Fetch i b) s = wbDecide i (compute i b.toNat (read (secondSrc i) s)) s.consume.countFetch2 := by
  obtain ⟨op1, op2, res, rfl | rfl⟩ := binary_of_isIndirect_secondSrc h <;>
    simp only [tick, handleOp2Fetch, read_consume, secondSrc]

theorem isJump_of_isIndirect_secondSrc {i : Instr} (h : isIndirect (secondSrc i) = true) : isJump i = false := by
  obtain ⟨op1, op2, res, rfl | rfl⟩ := binary_of_isIndirect_secondSrc h <;> rfl

/-! ## The stages left at each point of an instruction -/

/-- The stage an instruction ends in, if that is a cycle of its own. -/
def endStages (jumpWb : Bool) (i : Instr) : List Stage :=
  if isJump i then (if jumpWb then [.writeback] else [])
  else if isIndirect (dest i) then [.writeback]
  else if isImmediate (dest i) then [.exception]
  else []

/-- The stage that fetches the second operand, if that is in memory, and the end. -/
def op2Stages (jumpWb : Bool) (i : Instr) : List Stage :=
  (if isIndirect (secondSrc i) then [.op2Fetch] else []) ++ endStages jumpWb i

/-- The stage that fetches the first operand, if that is in memory, and those after it. -/
def op1Stages (jumpWb : Bool) (i : Instr) : List Stage :=
  (if isIndirect (firstSrc i) then [.op1Fetch] else []) ++ op2Stages jumpWb i

theorem stagesFrom_writeback (n : Nat) {s : State} {i : Instr} {v : Byte} (hp : s.pend = some (.writeback i v))
    (hd : isImmediate (dest i) = false) : stagesFrom (n + 1) s = [.writeback] := by
  obtain ⟨t, ht⟩ := write_completes hd v.toNat s.consume.countWriteback
  obtain ⟨-, hquiet⟩ := write_combinational ht
  rw [stagesFrom_ticked n hp (tick_writeback i v s ▸ ht), stagesFrom_quiescent n hquiet]
  rfl

theorem stagesFrom_exception (n : Nat) {s : State} {c : Cause} (hp : s.pend = some (.exception c)) :
    stagesFrom (n + 1) s = [.exception] := by
  rw [stagesFrom_ticked n hp rfl, stagesFrom_quiescent n rfl]
  rfl

theorem stagesFrom_wbDecide (n : Nat) {i : Instr} {v : Int} {s t : State} (hj : isJump i = false)
    (hp : s.pend = none) (h : wbDecide i v s = .next t) (jumpWb : Bool) :
    stagesFrom (n + 1) t = endStages jumpWb i := by
  rcases hd : dest i with r | a | w
  · rw [wbDecide_of_direct hd] at h
    obtain ⟨-, hquiet⟩ := write_combinational h
    simp [stagesFrom_quiescent _ (hquiet.trans hp), endStages, hj, hd]
  · rw [wbDecide_of_indirect hd] at h
    cases h
    have hlast := stagesFrom_writeback n (State.defer_pend s (.writeback i (trunc8 v))) (by simp [hd])
    simp [hlast, endStages, hj, hd]
  · rw [wbDecide_of_isImmediate (by simp [hd])] at h
    cases h
    simp [stagesFrom_exception n (raiseException_pend s _), endStages, hj, hd]

theorem stagesFrom_resolveOp2 (n : Nat) {i : Instr} {v : Int} {s t : State} (hj : isJump i = false)
    (hp : s.pend = none) (h : resolveOp2 i (secondSrc i) v s = .next t) (jumpWb : Bool) :
    stagesFrom (n + 2) t = op2Stages jumpWb i := by
  unfold resolveOp2 at h
  split at h
  case isTrue hind =>
    cases h
    obtain ⟨u, hu, -⟩ := wbDecide_total hj (compute i (trunc8 v).toNat (read (secondSrc i) (s.defer _)))
      (s := (s.defer (.op2Fetch i (trunc8 v))).consume.countFetch2) rfl
    rw [stagesFrom_ticked (n + 1) (State.defer_pend s _) ((tick_op2Fetch_of_isIndirect hind _ _).trans hu),
      stagesFrom_wbDecide n hj rfl hu jumpWb]
    simp [op2Stages, hind, Event.stage]
  case isFalse hind =>
    simp [stagesFrom_wbDecide (n + 1) hj hp h jumpWb, op2Stages, hind]

theorem stagesFrom_jumpWriteback (n : Nat) {offset : Source} {v : Int} {s t : State} (hp : s.pend = none)
    (h : jumpWriteback (.jmp offset) v s = .next t) :
    stagesFrom (n + 1) t = endStages s.params.jumpWbEvent (.jmp offset) := by
  unfold jumpWriteback at h
  split at h
  case isTrue hJ =>
    cases h
    have hlast := stagesFrom_writeback n (State.defer_pend s (.writeback (.jmp offset) (trunc8 v))) rfl
    simp [hlast, endStages, isJump, hJ]
  case isFalse hJ =>
    obtain ⟨-, hquiet⟩ := write_combinational h
    simp [stagesFrom_quiescent _ (hquiet.trans hp), endStages, isJump, hJ]

theorem stagesFrom_afterOp1 (n : Nat) {i : Instr} {v : Int} {s t : State} (hp : s.pend = none)
    (h : afterOp1 i v s = .next t) : stagesFrom (n + 2) t = op2Stages s.params.jumpWbEvent i := by
  cases i with
  | mov op1 res => exact stagesFrom_wbDecide (n + 1) (i := .mov op1 res) rfl hp h s.params.jumpWbEvent
  | add op1 op2 res => exact stagesFrom_resolveOp2 n (i := .add op1 op2 res) rfl hp h _
  | sub op1 op2 res => exact stagesFrom_resolveOp2 n (i := .sub op1 op2 res) rfl hp h _
  | jmp offset => exact stagesFrom_jumpWriteback (n + 1) hp h

theorem walk_eq_op1Stages (i : Instr) {s : State} (hp : s.pend = none) :
    walk i s = op1Stages s.params.jumpWbEvent i := by
  obtain ⟨t, ht, -⟩ := issue_total i hp
  rw [walk_of_issue ht]
  cases hind : isIndirect (firstSrc i) with
  | true =>
    rw [issue_of_indirect hp hind] at ht
    cases ht
    obtain ⟨u, hu, -⟩ := tick_total (e := .op1Fetch i) (s := s.chargeCycle.defer (.op1Fetch i)) hind
    rw [stagesFrom_ticked 3 (State.defer_pend _ _) hu, stagesFrom_afterOp1 1 rfl hu]
    simp [op1Stages, hind, Event.stage]
  | false =>
    rw [issue_of_combinational hp hind] at ht
    simp [stagesFrom_afterOp1 2 (s := s.chargeCycle) hp ht, op1Stages, hind]

/-- Settles O38: `walk_eq_op1Stages` with the lists of stages written out. -/
theorem walkFollowsShape : Obligations.WalkFollowsShape :=
  fun i _ hp => walk_eq_op1Stages i hp

/-- No instruction visits a stage twice. -/
theorem op1Stages_nodup (jumpWb : Bool) (i : Instr) : (op1Stages jumpWb i).Nodup := by
  unfold op1Stages op2Stages endStages
  split_ifs <;> decide

/-- Settles O37: what an issue, a tick and an instruction charge, and the walk's stages, each at most once. -/
theorem stageCountersCountConsumedEvents : Obligations.StageCountersCountConsumedEvents := by
  refine ⟨fun i s t => issue_charged, fun e s t h => (tick_next h).charged, fun i s t h => ⟨exec_charged h, ?_⟩⟩
  obtain ⟨hp, -⟩ := exec_eq_next.mp h
  rw [walk_eq_op1Stages i hp]
  exact op1Stages_nodup _ i

/-! ## Retirement -/

/-- With no move waiting the steps of the machine are the ticks of a drain. -/
theorem run_eq_drain (n : Nat) {s : State} (hin : s.inputs = []) : run n s = drain n s := by
  induction n generalizing s with
  | zero => rfl
  | succ n ih =>
    rw [run, step_nil hin]
    cases hp : s.pend with
    | none => rw [edge_idle rfl rfl hp, andThen_next, ih hin, drain_quiescent _ hp, drain_quiescent _ hp]
    | some e =>
      rw [edge_busy rfl hp, drain_pending n hp]
      cases ht : tick e s with
      | next t => exact ih ((tick_next ht).inputs.trans hin)
      | fault f => rfl
      | refused r => rfl

/-- An event an instruction can produce is three ticks from quiescence at most (41_pipeline.md R92). -/
theorem drain_three_quiescent {s : State} (h : pendOk s = true) : ∃ t, drain 3 s = .next t ∧ t.pend = none := by
  cases hp : s.pend with
  | none => exact ⟨s, drain_quiescent 3 hp, hp⟩
  | some e =>
    have hok := eventOk_of_pendOk h hp
    rw [drain_pending 2 hp]
    cases e with
    | op1Fetch i => exact ⟨_, afterOp1_drain i _ 0 (s := s.consume.countFetch1) rfl, rfl⟩
    | op2Fetch i v =>
      rw [tick_op2Fetch_of_isIndirect hok]
      exact ⟨_, wbDecide_drain (isJump_of_isIndirect_secondSrc hok) _ 1 rfl, rfl⟩
    | writeback i v =>
      obtain ⟨t, ht, -⟩ := tick_total hok
      obtain ⟨-, ⟨hquiet, -⟩, -⟩ := tick_writeback_stores ht
      exact ⟨t, by rw [ht, andThen_next, drain_quiescent _ hquiet], hquiet⟩
    | exception c => exact ⟨_, rfl, rfl⟩

/-- Settles O50: three idle steps are three ticks. -/
theorem issuedInstructionRetires : Obligations.IssuedInstructionRetires := by
  intro s hok hin
  rw [run_eq_drain 3 hin]
  exact drain_three_quiescent hok

end Sys2Proof.Machine
end

section
/-! What a step keeps and refuses, and what it does not look at (41_pipeline.md R97, R98; 93 U2, U6). -/

namespace Sys2Proof.Machine

/-! ## Refusals -/

/-- An instruction is refused only while an event is pending. -/
theorem exec_refused {i : Instr} {s : State} {r : Refusal} (h : exec i s = .refused r) :
    r = .notQuiescent ∧ s.pend ≠ none := by
  cases hp : s.pend with
  | none => simp [exec_quiescent i hp] at h
  | some e =>
    rw [exec_eq_execute, execute_busy i hp] at h
    cases h
    exact ⟨rfl, by simp⟩

/-- An edge is refused only when the core accepts an invalid word. -/
theorem edge_refused {p : PortIn} {s : State} {r : Refusal} (h : edge p s = .refused r) :
    ∃ e, r = .invalidWord e ∧ decode p.instr = .error e ∧ accepts p s = true := by
  obtain ⟨-, he⟩ | ⟨-, e, -, he⟩ | ⟨-, -, -, he⟩ | ⟨-, hp, -, i, -, he⟩ | ⟨hr, hp, hv, e, hd, he⟩ :=
    edge_cases p s <;> rw [he] at h
  · cases h
  · exact absurd h (tick_not_refused e s r)
  · cases h
  · obtain ⟨t, ht, -⟩ := issue_total i hp
    simp [ht] at h
  · cases h
    exact ⟨e, rfl, hd, by simp [accepts, ready, hr, hp, hv]⟩

/-- Settles O48: by the harness's next move; an idle edge accepts nothing. -/
theorem refusalsAreHarnessBreaches : Obligations.RefusalsAreHarnessBreaches := by
  intro s r h
  cases hin : s.inputs with
  | nil =>
    rw [step_nil hin] at h
    obtain ⟨e, -, -, hacc⟩ := edge_refused h
    simp [accepts, PortIn.idle] at hacc
  | cons m rest =>
    rw [step_cons hin] at h
    obtain ⟨i, hm, hd⟩ | ⟨w, e, rfl, hw, hd⟩ | ⟨p, rfl, hd⟩ := deliver_cases m { s with inputs := rest } <;>
      rw [hd] at h
    · obtain ⟨rfl, hp⟩ := exec_refused h
      refine .inr ⟨rfl, hp, i, rest, ?_⟩
      obtain rfl | ⟨w, rfl, hw⟩ := hm
      · exact .inl rfl
      · exact .inr ⟨w, rfl, hw⟩
    · cases h
      exact .inl ⟨w, e, rfl, hw, .inl ⟨rest, rfl⟩⟩
    · obtain ⟨e, rfl, hw, hacc⟩ := edge_refused h
      exact .inl ⟨p.instr, e, rfl, hw, .inr ⟨p, rest, rfl, rfl, hacc⟩⟩

/-! ## What a step keeps -/

/-- Settles O49: each of the five kinds of step keeps the parameters and the moves that wait after its
own, and only appends to the record. -/
theorem stepKeepsParametersAndHistory : Obligations.StepKeepsParametersAndHistory := by
  intro s t h
  obtain ⟨i, -, rfl⟩ | rfl | ⟨e, -, ht⟩ | rfl | ⟨i, hp, ht⟩ := step_next h
  · exact ⟨rfl, rfl, _, afterExecute_diagnostics i _⟩
  · exact ⟨rfl, rfl, [], by simp⟩
  · have hT := tick_next ht
    exact ⟨hT.params, hT.inputs, _, hT.diagnostics⟩
  · exact ⟨rfl, rfl, [], by simp⟩
  · obtain ⟨t', ht', hc, -⟩ := issue_total i (s := { s with inputs := s.inputs.tail }) hp
    obtain rfl : t' = t := by simpa [ht'] using ht
    exact ⟨hc.params, hc.inputs, [], by simpa using hc.diagnostics⟩

/-! ## Counters do not influence results -/

theorem Simulates.deliver {R : State → State → Prop} (hR : Simulates R) {s t : State} (h : R s t)
    (m : HarnessMove) : Alike R (deliver m s) (deliver m t) := by
  cases m with
  | call i => simpa only [Machine.deliver, exec_eq_execute] using hR.execute h i
  | callWord w =>
    cases hd : decode w with
    | ok i => simpa only [deliver_callWord hd, exec_eq_execute] using hR.execute h i
    | error e => simpa only [Machine.deliver, hd] using Alike.refused (R := R) (.invalidWord e)
  | edge p => exact hR.edge h p

theorem SameButCounters.withInputs {s t : State} (h : SameButCounters s t) (l : List HarnessMove) :
    SameButCounters { s with inputs := l } { t with inputs := l } := by
  obtain ⟨hx, hmem, hpend, hparams, -⟩ := h
  exact ⟨hx, hmem, hpend, hparams, rfl⟩

/-- States that differ only in counters and diagnostics step alike. -/
theorem SameButCounters.step {s t : State} (h : SameButCounters s t) : Alike SameButCounters (step s) (step t) := by
  have hrest := h.withInputs (nextMove s.inputs).2
  obtain ⟨-, -, -, -, hin⟩ := h
  rw [Machine.step, Machine.step, ← hin]
  exact simulates_sameButCounters.deliver hrest _

/-- Settles O40: the same answer, with related next states. -/
theorem countersNeverInfluenceResults : Obligations.CountersNeverInfluenceResults := by
  refine ⟨fun s t s' h hs => ?next, fun s t f h hs => ?fault, fun s t r h hs => ?refused⟩ <;>
    have halike := h.step <;> rw [hs] at halike
  case next =>
    generalize step t = o at halike ⊢
    cases halike with
    | next h' => exact ⟨_, rfl, h'⟩
  case fault =>
    generalize step t = o at halike ⊢
    cases halike
    rfl
  case refused =>
    generalize step t = o at halike ⊢
    cases halike
    rfl

/-! ## Charges depend only on the shape -/

theorem latency_eq_of_sameMode {a b : Source} (h : sameMode a b = true) :
    isIndirect a = isIndirect b ∧ isImmediate a = isImmediate b := by
  cases a <;> cases b <;> simp_all [sameMode]

/-- Instructions of one shape have the same latency classes and are Jumps alike (41_pipeline.md R98). -/
theorem classes_eq_of_sameShape {i j : Instr} (h : sameShape i j = true) :
    isIndirect (firstSrc i) = isIndirect (firstSrc j) ∧ isIndirect (secondSrc i) = isIndirect (secondSrc j) ∧
      isIndirect (dest i) = isIndirect (dest j) ∧ isImmediate (dest i) = isImmediate (dest j) ∧
      isJump i = isJump j := by
  cases i <;> cases j <;> simp only [sameShape, Bool.and_eq_true, Bool.false_eq_true] at h
  case mov.mov =>
    obtain ⟨ha, hd⟩ := h
    obtain ⟨hind, himm⟩ := latency_eq_of_sameMode hd
    exact ⟨(latency_eq_of_sameMode ha).1, rfl, hind, himm, rfl⟩
  case jmp.jmp => exact ⟨(latency_eq_of_sameMode h).1, rfl, rfl, rfl, rfl⟩
  all_goals
    obtain ⟨⟨ha, hb⟩, hd⟩ := h
    obtain ⟨hind, himm⟩ := latency_eq_of_sameMode hd
    exact ⟨(latency_eq_of_sameMode ha).1, (latency_eq_of_sameMode hb).1, hind, himm, rfl⟩

/-- Settles O41: the charges are functions of the build and the latency classes. -/
theorem chargesDependOnlyOnShape : Obligations.ChargesDependOnlyOnShape := by
  intro i j s t u v hshape hparams hi hj
  obtain ⟨-, rfl⟩ := exec_eq_next.mp hi
  obtain ⟨-, rfl⟩ := exec_eq_next.mp hj
  obtain ⟨h1, h2, hd, himm, hjump⟩ := classes_eq_of_sameShape hshape
  refine ⟨_, _, _, _, _, afterExecute_charged i s, ?_⟩
  have hc := afterExecute_charged j u
  simpa only [cyclesOf_eq_stages, endsInWriteback, hparams, h1, h2, hd, himm, hjump] using hc

end Sys2Proof.Machine
end

section
/-! The 8-bit datapath is exact (41_pipeline.md R103): what is stored depends on the operands modulo 256
only, so reduced latches and literals change nothing. -/

namespace Sys2Proof.Machine

/-! ## The normal form of an instruction -/

@[simp] theorem normalise_direct (r : Fin 16) : (Source.direct r).normalise = .direct r := rfl

@[simp] theorem normalise_indirect (a : Fin 1024) : (Source.indirect a).normalise = .indirect a := rfl

@[simp] theorem normalise_immediate (v : Int) : (Source.immediate v).normalise = .immediate (trunc8 v).toNat := rfl

@[simp] theorem isIndirect_normalise (a : Source) : isIndirect a.normalise = isIndirect a := by
  cases a <;> rfl

@[simp] theorem firstSrc_normalise (i : Instr) : firstSrc i.normalise = (firstSrc i).normalise := by
  cases i <;> rfl

@[simp] theorem secondSrc_normalise (i : Instr) : secondSrc i.normalise = (secondSrc i).normalise := by
  cases i <;> rfl

@[simp] theorem dest_normalise (i : Instr) : dest i.normalise = (dest i).normalise := by
  cases i <;> rfl

@[simp] theorem isJump_normalise (i : Instr) : isJump i.normalise = isJump i := by
  cases i <;> rfl

/-- A normal form reads as the same byte. -/
@[simp] theorem trunc8_read_normalise (a : Source) (s : State) : trunc8 (read a.normalise s) = trunc8 (read a s) := by
  cases a with
  | direct r => rfl
  | indirect a => rfl
  | immediate v => exact trunc8_natCast (trunc8 v)

theorem trunc8_eq_iff {v w : Int} : trunc8 v = trunc8 w ↔ v % 256 = w % 256 := by
  refine ⟨fun h => ?_, trunc8_congr⟩
  rw [← trunc8_toNat, ← trunc8_toNat, h]

/-- The stored byte of a result depends on the operands' bytes only. -/
theorem trunc8_compute_normalise (i : Instr) {a a' b b' : Int} (ha : trunc8 a' = trunc8 a)
    (hb : trunc8 b' = trunc8 b) : trunc8 (compute i.normalise a' b') = trunc8 (compute i a b) := by
  rw [trunc8_eq_iff] at ha hb
  cases i with
  | mov op1 res => exact trunc8_congr ha
  | add op1 op2 res => exact trunc8_congr (Int.ModEq.add ha hb)
  | sub op1 op2 res => exact trunc8_congr (Int.ModEq.sub ha hb)
  | jmp offset => exact trunc8_congr ha

/-- An instruction and its normal form leave the same state. -/
theorem afterExecute_normalise (i : Instr) (s : State) : afterExecute i.normalise s = afterExecute i s := by
  have hresult : trunc8 (resultOf i.normalise s) = trunc8 (resultOf i s) := by
    apply trunc8_compute_normalise <;> simp
  rcases hd : dest i with r | a | w <;>
    simp [State.ext_iff, afterExecute_x, afterExecute_mem, hresult, hd, cyclesOf_eq_stages,
      endsInWriteback]

theorem exec_normalise (i : Instr) (s : State) : exec i.normalise s = exec i s := by
  cases hp : s.pend with
  | none => rw [exec_quiescent _ hp, exec_quiescent _ hp, afterExecute_normalise]
  | some e => simp only [exec_eq_execute, execute_busy _ hp]

/-! ## The unbounded machine, part by part: each answers what the 8-bit one does on reduced latches -/

theorem narrow_wideRetire_write {d : Source} {v v' : Int} (hv : trunc8 v' = trunc8 v) (s : State) :
    narrowResult (wideRetire (write d v s)) = write d.normalise v' (narrow ⟨s, none⟩) := by
  cases d <;> simp [write, wideRetire, narrowResult, Source.normalise, hv] <;> rfl

theorem narrow_wideWbDecide (i : Instr) {v v' : Int} (hv : trunc8 v' = trunc8 v) (s : State) :
    narrowResult (wideWbDecide i v s) = wbDecide i.normalise v' (narrow ⟨s, none⟩) := by
  rcases hd : dest i with r | a | w
  · simp only [wideWbDecide, wbDecide, dest_normalise, hd]
    exact narrow_wideRetire_write (d := .direct r) hv s
  · simp only [wideWbDecide, wbDecide, dest_normalise, hd, Source.normalise, hv]
    rfl
  · simp only [wideWbDecide, wbDecide, dest_normalise, hd, Source.normalise]
    rfl

/-- The second operand of a Binary: its fetch deferred with the first one latched, or its result decided. -/
theorem narrow_resolveOp2 (i : Instr) (op2 : Source) {v v' : Int} (hv : trunc8 v' = trunc8 v) (s : State) :
    narrowResult (if isIndirect op2 then .next ⟨s, some (.op2Fetch i v)⟩
        else wideWbDecide i (compute i v (read op2 s)) s) =
      resolveOp2 i.normalise op2.normalise v' (narrow ⟨s, none⟩) := by
  have hread : trunc8 (read op2.normalise (narrow ⟨s, none⟩)) = trunc8 (read op2 s) := trunc8_read_normalise op2 _
  simp only [resolveOp2, isIndirect_normalise]
  split
  · rw [hv]
    rfl
  · exact narrow_wideWbDecide i (trunc8_compute_normalise i hv hread) s

theorem narrow_wideAfterOp1 (i : Instr) {v v' : Int} (hv : trunc8 v' = trunc8 v) (s : State) :
    narrowResult (wideAfterOp1 i v s) = afterOp1 i.normalise v' (narrow ⟨s, none⟩) := by
  cases i with
  | mov op1 res => exact narrow_wideWbDecide (.mov op1 res) hv s
  | add op1 op2 res => exact narrow_resolveOp2 (.add op1 op2 res) op2 hv s
  | sub op1 op2 res => exact narrow_resolveOp2 (.sub op1 op2 res) op2 hv s
  | jmp offset =>
    have hparams : (narrow ⟨s, none⟩).params = s.params := rfl
    simp only [wideAfterOp1, afterOp1, Instr.normalise, jumpWriteback, hparams]
    split
    · rw [hv]
      rfl
    · exact narrow_wideRetire_write (d := .direct 0) hv s

theorem narrow_wideIssue (i : Instr) (w : Wide) :
    narrowResult (wideIssue i w) = issue i.normalise (narrow w) := by
  obtain ⟨s, _ | e⟩ := w
  · have hp : (narrow ⟨s, none⟩).pend = none := rfl
    cases hind : isIndirect (firstSrc i) with
    | true =>
      rw [issue_of_indirect hp (by simp [hind])]
      simp only [wideIssue, hind]
      rfl
    | false =>
      rw [issue_of_combinational hp (by simp [hind])]
      simp only [wideIssue, hind, firstSrc_normalise]
      exact narrow_wideAfterOp1 i (trunc8_read_normalise _ s) s.chargeCycle
  · exact (issue_busy i.normalise (e := narrowEvent e) rfl).symm

theorem narrow_wideTick {e : WideEvent} {w : Wide} (hp : w.pend = some e) :
    narrowResult (wideTick e w.base) = tick (narrowEvent e) (narrow w) := by
  obtain ⟨s, p⟩ := w
  obtain rfl : p = some e := hp
  have hread : ∀ a, trunc8 (read a.normalise (narrow ⟨s, some e⟩).consume) = trunc8 (read a s) :=
    fun a => trunc8_read_normalise a _
  cases e with
  | op1Fetch i =>
    have h := hread (firstSrc i)
    rw [← firstSrc_normalise] at h
    exact narrow_wideAfterOp1 i h s.chargeCycle.countFetch1
  | op2Fetch i v =>
    have hv : trunc8 ((trunc8 v).toNat : Int) = trunc8 v := trunc8_natCast _
    cases i with
    | mov op1 res => rfl
    | add op1 op2 res =>
      exact narrow_wideWbDecide (.add op1 op2 res) (trunc8_compute_normalise (.add op1 op2 res) hv (hread op2)) _
    | sub op1 op2 res =>
      exact narrow_wideWbDecide (.sub op1 op2 res) (trunc8_compute_normalise (.sub op1 op2 res) hv (hread op2)) _
    | jmp offset => rfl
  | writeback i v =>
    have h := narrow_wideRetire_write (d := dest i) (trunc8_natCast (trunc8 v)) s.chargeCycle.countWriteback
    rwa [← dest_normalise] at h
  | exception c => rfl

/-- Settles O42: the normal form runs alike, and the two machines issue and tick alike. -/
theorem eightBitDatapathIsExact : Obligations.EightBitDatapathIsExact :=
  ⟨exec_normalise, narrow_wideIssue, fun _ _ => narrow_wideTick⟩

end Sys2Proof.Machine
end

section
/-! Port-level runs against call-level runs (50_interface.md R140): a run of edges is cut at its accepting
edges, and between two of them the core ticks the accepted instruction to its end. -/

namespace Sys2Proof.Machine

/-- The edges `ps` from `s`, as steps. -/
def edgeRun (ps : List PortIn) (s : State) : Result := run ps.length { s with inputs := ps.map .edge }

/-- The calls of the words `ws` from `s`, as steps. -/
def callRun (ws : List Word) (s : State) : Result := run ws.length { s with inputs := ws.map .callWord }

/-- The first of some edges does not look at the moves after it. -/
theorem edgeRun_cons {p : PortIn} {ps : List PortIn} {s t : State} (h : edgeRun (p :: ps) s = .next t) :
    ∃ s', edge p s = .next s' ∧ edgeRun ps s' = .next t := by
  rw [edgeRun, List.length_cons, run, step_cons rfl] at h
  obtain ⟨t', hedge, hrun⟩ := andThen_eq_next.mp h
  have halike := (simulates_sameButInputs (ps.map .edge)).edge (s := s) (t := { s with inputs := ps.map .edge }) rfl p
  rw [show edge p { s with inputs := ps.map .edge } = .next t' from hedge] at halike
  generalize edge p s = o at halike ⊢
  cases halike with
  | next ht =>
    obtain rfl := ht
    exact ⟨_, rfl, hrun⟩

/-- The first of some calls does not look at the moves after it. -/
theorem callRun_cons {w : Word} {i : Instr} {s s' : State} (hw : decode w = .ok i) (h : exec i s = .next s')
    (ws : List Word) : callRun (w :: ws) s = callRun ws s' := by
  obtain ⟨hp, rfl⟩ := exec_eq_next.mp h
  have hexec : exec i { s with inputs := ws.map .callWord } =
      .next { afterExecute i s with inputs := ws.map .callWord } :=
    exec_quiescent i (s := { s with inputs := ws.map .callWord }) hp
  rw [callRun, List.length_cons, run, step_cons rfl, deliver_callWord hw]
  exact congrArg (andThen · (run ws.length)) hexec

theorem acceptedWords_cons {p : PortIn} {s s' : State} (h : edge p s = .next s') (ps : List PortIn) :
    acceptedWords (p :: ps) s = (if accepts p s then [p.instr] else []) ++ acceptedWords ps s' := by
  simp [acceptedWords, h]

theorem busyEdges_cons {p : PortIn} {s s' : State} (h : edge p s = .next s') (ps : List PortIn) :
    busyEdges (p :: ps) s = (if accepts p s || (!p.rst && !ready s) then 1 else 0) + busyEdges ps s' := by
  simp [busyEdges, h]

/-- The instruction in flight at `s` ends in a state `u` from which the calls of the words accepted later
lead where the edges lead. -/
theorem callRun_of_edgeRun {ps : List PortIn} {s t : State} (hrst : ∀ p ∈ ps, p.rst = false)
    (h : edgeRun ps s = .next t) (ht : t.pend = none) :
    (∃ u, TicksTo s u ∧ callRun (acceptedWords ps s) u = .next t) ∧ t.cycles = s.cycles + busyEdges ps s := by
  induction ps generalizing s with
  | nil =>
    obtain rfl : { s with inputs := [] } = t := by simpa [edgeRun, run] using h
    exact ⟨⟨s, .done ht, rfl⟩, rfl⟩
  | cons p ps ih =>
    obtain ⟨s', hedge, hrun⟩ := edgeRun_cons h
    obtain ⟨hr, hrst⟩ := List.forall_mem_cons.mp hrst
    obtain ⟨⟨u, hticks, hcalls⟩, hcycles⟩ := ih hrst hrun
    rw [acceptedWords_cons hedge, busyEdges_cons hedge]
    obtain ⟨hr', -⟩ | ⟨-, e, hp, he⟩ | ⟨-, hp, hv, he⟩ | ⟨-, hp, hv, i, hd, he⟩ | ⟨-, -, -, e, -, he⟩ := edge_cases p s
    · simp [hr] at hr'
    · have htick : tick e s = .next s' := he ▸ hedge
      obtain ⟨hcharge, -⟩ := (tick_next htick).charged
      have hacc : accepts p s = false := by simp [accepts, ready, hp]
      exact ⟨⟨u, .more hp htick hticks, by simpa [hacc] using hcalls⟩, by rw [if_pos (by simp [hr, ready, hp])]; omega⟩
    · obtain rfl : s = s' := by simpa [he] using hedge
      have hacc : accepts p s = false := by simp [accepts, hv]
      exact ⟨⟨u, hticks, by simpa [hacc] using hcalls⟩, by rw [if_neg (by simp [hacc, ready, hp])]; omega⟩
    · have hissue : issue i s = .next s' := he ▸ hedge
      obtain ⟨hcharge, -⟩ := issue_charged hissue
      have hacc : accepts p s = true := by simp [accepts, ready, hr, hp, hv]
      have hexec : exec i s = .next u := (executeRunsToQuiescence.1 i s u).mpr ⟨s', hissue, hticks⟩
      refine ⟨⟨s, .done hp, ?_⟩, by rw [if_pos (by simp [hacc])]; omega⟩
      rw [if_pos hacc, List.singleton_append, callRun_cons hd hexec, hcalls]
    · simp [he] at hedge

/-- Settles O51: from a quiescent state no instruction is in flight. -/
theorem portLevelRunsEqualCallLevelRuns : Obligations.PortLevelRunsEqualCallLevelRuns := by
  intro ps s t hp hrst h ht
  obtain ⟨⟨u, hticks, hcalls⟩, hcycles⟩ := callRun_of_edgeRun hrst h ht
  obtain rfl : s = u := ticksTo_unique (.done hp) hticks
  exact ⟨hcalls, hcycles⟩

end Sys2Proof.Machine
end

section
/-! The assembler reads what the disassembler prints (30_encoding.md R63, R65): numbers, then sources,
then lines. -/

namespace Sys2Proof.Machine

/-! ## Decimal digits -/

theorem decDigit_digitChar {d : Nat} (hd : d < 10) : decDigit (digitChar d) = some d := by
  interval_cases d <;> rfl

/-- No digit stands for punctuation or for the `x` of `0x`. -/
theorem digitChar_ne {c : Char} (hc : decDigit c = none) {d : Nat} (hd : d < 10) : digitChar d ≠ c := by
  rintro rfl
  simp [decDigit_digitChar hd] at hc

/-- A printed number is made of digits. -/
theorem digitChar_of_mem_decDigits {fuel n : Nat} {c : Char} (h : c ∈ decDigits fuel n) :
    ∃ d < 10, c = digitChar d := by
  induction fuel generalizing n with
  | zero => simp [decDigits] at h
  | succ fuel ih =>
    unfold decDigits at h
    split at h
    case isTrue hn => exact ⟨n, hn, by simpa using h⟩
    case isFalse =>
      obtain h | h := List.mem_append.mp h
      · exact ih h
      · exact ⟨n % 10, Nat.mod_lt n (by decide), by simpa using h⟩

theorem not_mem_decDigits {c : Char} (hc : decDigit c = none) (fuel n : Nat) : c ∉ decDigits fuel n := by
  intro h
  obtain ⟨d, hd, rfl⟩ := digitChar_of_mem_decDigits h
  exact digitChar_ne hc hd rfl

theorem decDigits_ne_nil (fuel n : Nat) : decDigits (fuel + 1) n ≠ [] := by
  unfold decDigits
  split <;> simp

/-- A printed number starts with a digit. -/
theorem decDigits_eq_cons (fuel n : Nat) : ∃ d < 10, ∃ cs, decDigits (fuel + 1) n = digitChar d :: cs := by
  cases h : decDigits (fuel + 1) n with
  | nil => exact absurd h (decDigits_ne_nil fuel n)
  | cons c cs =>
    obtain ⟨d, hd, rfl⟩ := digitChar_of_mem_decDigits (h ▸ List.mem_cons_self)
    exact ⟨d, hd, cs, rfl⟩

/-- Reading the digits of `n` leaves `n` in the accumulator. -/
theorem readDigits_decDigits {fuel n : Nat} (hn : n < 10 ^ fuel) (rest : List Char) :
    readDigits 10 decDigit 0 (decDigits fuel n ++ rest) = readDigits 10 decDigit n rest := by
  induction fuel generalizing n rest with
  | zero =>
    obtain rfl : n = 0 := by simpa using hn
    rfl
  | succ fuel ih =>
    unfold decDigits
    split
    case isTrue hlt => simp [readDigits, decDigit_digitChar hlt]
    case isFalse =>
      have hmod : n % 10 < 10 := Nat.mod_lt n (by decide)
      rw [List.append_assoc, ih (by rw [Nat.pow_succ] at hn; omega), List.singleton_append, readDigits,
        decDigit_digitChar hmod]
      simp only [Nat.div_add_mod']

/-! ## Numbers -/

/-- What stands after a printed number: nothing that could be read as a part of it. -/
def endsNumber : List Char → Bool
  | [] => true
  | c :: _ => (decDigit c).isNone && c != 'x'

theorem readDigits_of_endsNumber (base acc : Nat) {rest : List Char} (h : endsNumber rest = true) :
    readDigits base decDigit acc rest = (acc, rest) := by
  cases rest with
  | nil => rfl
  | cons c cs =>
    obtain ⟨hc, -⟩ : decDigit c = none ∧ ¬c = 'x' := by simpa [endsNumber] using h
    simp [readDigits, hc]

theorem readDec_decDigits {fuel n : Nat} (hn : n < 10 ^ (fuel + 1)) {rest : List Char}
    (hr : endsNumber rest = true) : readDec (decDigits (fuel + 1) n ++ rest) = some (n, rest) := by
  have hdigits := readDigits_decDigits hn rest
  obtain ⟨d, hd, cs, hcs⟩ := decDigits_eq_cons fuel n
  rw [readDigits_of_endsNumber 10 n hr, hcs, List.cons_append, readDigits, decDigit_digitChar hd] at hdigits
  rw [hcs, List.cons_append, readDec, decDigit_digitChar hd]
  simpa using hdigits

/-- A number with no `0x` is read as a decimal one. -/
theorem readNumber_eq_readDec {cs : List Char} (h : ∀ t, cs ≠ '0' :: 'x' :: t) : readNumber cs = readDec cs := by
  unfold readNumber
  split
  case h_1 t => exact absurd rfl (h t)
  case h_2 => rfl

theorem readNumber_decDigits {fuel n : Nat} (hn : n < 10 ^ (fuel + 1)) {rest : List Char}
    (hr : endsNumber rest = true) : readNumber (decDigits (fuel + 1) n ++ rest) = some (n, rest) := by
  rw [readNumber_eq_readDec, readDec_decDigits hn hr]
  intro t ht
  have hx : 'x' ∉ decDigits (fuel + 1) n := not_mem_decDigits rfl _ _
  obtain ⟨d, -, cs, hcs⟩ := decDigits_eq_cons fuel n
  rw [hcs] at hx ht
  cases cs with
  | nil =>
    obtain ⟨-, rfl⟩ : digitChar d = '0' ∧ rest = 'x' :: t := by simpa using ht
    simp [endsNumber] at hr
  | cons c cs =>
    obtain ⟨-, rfl, -⟩ : digitChar d = '0' ∧ c = 'x' ∧ cs ++ rest = t := by simpa using ht
    simp at hx

theorem readInteger_decDigits {fuel n : Nat} (hn : n < 10 ^ (fuel + 1)) {rest : List Char}
    (hr : endsNumber rest = true) : readInteger (decDigits (fuel + 1) n ++ rest) = some ((n : Int), rest) := by
  have hnum := readNumber_decDigits hn hr
  unfold readInteger
  split
  case h_1 cs hcs =>
    obtain ⟨d, hd, cs', hcs'⟩ := decDigits_eq_cons fuel n
    rw [hcs', List.cons_append] at hcs
    exact absurd (List.cons.inj hcs).1 (digitChar_ne rfl hd)
  case h_2 => rw [hnum]

/-! ## Sources -/

/-- A printed source is read back as its normal form, whatever text follows it. -/
theorem readSource_showSource (a : Source) {rest : List Char} (hr : endsNumber rest = true) :
    readSource (showSource a ++ rest) = some (a.normalise, rest) := by
  cases a with
  | direct r =>
    have hn : r.val < 10 ^ 4 := by omega
    simp [showSource, readSource, skipBlanks, isBlank, readRegister, readDec_decDigits hn hr]
  | indirect a =>
    have hn : a.val < 10 ^ 4 := by omega
    have hclose : endsNumber (']' :: rest) = true := rfl
    simp [showSource, readSource, skipBlanks, isBlank, readCell, readNumber_decDigits hn hclose]
  | immediate v =>
    have hv := (trunc8 v).isLt
    have hn : (trunc8 v).toNat < 10 ^ 4 := by omega
    simp [showSource, readSource, skipBlanks, isBlank, readLiteral, readInteger_decDigits hn hr]

@[simp] theorem readSource_space (cs : List Char) : readSource (' ' :: cs) = readSource cs := rfl

theorem readDest_showDest (d : Source) : readDest (showDest d) = some d.normalise := by
  have h := readSource_showSource d (rest := []) rfl
  rw [List.append_nil] at h
  simp [showDest, readDest, skipBlanks, isBlank, h]

theorem endsNumber_showDest (d : Source) : endsNumber (showDest d) = true := rfl

theorem readUnary_shown (k : Source → Source → Instr) (a d : Source) :
    readUnary k (showSource a ++ showDest d) = some (k a.normalise d.normalise) := by
  simp [readUnary, readSource_showSource a (endsNumber_showDest d), readDest_showDest]

theorem readBinary_shown (k : Source → Source → Source → Instr) (a b d : Source) :
    readBinary k (showSource a ++ ([',', ' '] ++ (showSource b ++ showDest d))) =
      some (k a.normalise b.normalise d.normalise) := by
  have hcomma : endsNumber ([',', ' '] ++ (showSource b ++ showDest d)) = true := rfl
  rw [readBinary, readSource_showSource a hcomma]
  simp [skipBlanks, isBlank, readSource_showSource b (endsNumber_showDest d), readDest_showDest]

theorem readJump_shown (a : Source) : readJump (showSource a) = some (.jmp a.normalise) := by
  have h := readSource_showSource a (rest := []) rfl
  rw [List.append_nil] at h
  simp [readJump, h, skipBlanks]

/-! ## Lines -/

theorem dropComment_of_not_mem {cs : List Char} (h : ';' ∉ cs) : dropComment cs = cs := by
  induction cs with
  | nil => rfl
  | cons c cs ih =>
    obtain ⟨hc, hcs⟩ := not_or.mp (List.mem_cons.not.mp h)
    rw [dropComment, if_neg (Ne.symm hc), ih hcs]

theorem semicolon_not_mem_showSource (a : Source) : ';' ∉ showSource a := by
  have h := not_mem_decDigits (c := ';') rfl 4
  cases a <;> simp [showSource, h]

/-- Printed text holds no comment. -/
theorem dropComment_disassemble (i : Instr) : dropComment (disassemble i) = disassemble i := by
  apply dropComment_of_not_mem
  cases i <;> simp [disassemble, showDest, semicolon_not_mem_showSource]

/-- Settles O6: a printed line has its mnemonic, one blank, and its sources, each read back as its normal
form. -/
theorem assemblerReadsCanonicalText : Obligations.AssemblerReadsCanonicalText := by
  intro i
  rw [assembleLine, dropComment_disassemble]
  cases i with
  | mov op1 res => exact readUnary_shown .mov op1 res
  | add op1 op2 res => exact readBinary_shown .add op1 op2 res
  | sub op1 op2 res => exact readBinary_shown .sub op1 op2 res
  | jmp offset => exact readJump_shown offset

end Sys2Proof.Machine
end
